-- ==== Sys2Proof/Word.lean ====
section
/-! DEFINITION. The widths of the engine's data (spec 00_scope.md R6, R7, R9): bytes, 16-bit channel words, the 12-bit key
length field and the 4-bit sequencer code. All values are unsigned; `+` on a `Byte` is the "mod 256" addition of R10 (the
carry is dropped) and `^^^` is the bitwise `xor` of R10. -/

namespace Sys2Proof

/-- SLOT_W, IDX_W and the width of key, input, keystream and output bytes (R6). -/
abbrev Byte := BitVec 8

/-- CMD_W and RSP_W: a command word or a response word (R7). -/
abbrev Word := BitVec 16

/-- KLEN_W: the key length field of START (R7, R81). -/
abbrev Klen := BitVec 12

/-- SEQ_W: the width of a sequencer code as it is encoded (R7, R26). -/
abbrev SeqBits := BitVec 4

end Sys2Proof
end

