-- ==== Sys2Proof/Syntax.lean ====
section
/-! DEFINITION. The instructions of spec/opcode_table.json, one constructor a row; the codes that carry them; the responses
of 30_encoding.md R87; and the assembler's lines (R90 to R92). -/

namespace Sys2Proof

/-- The opcode map of R93. START, DATA and END are the host's commands (format CMD16). The others are the
micro-operations SEQ selects (format UOP4); DISPATCH has two rows, "which differ in the commands they admit" (R88). The
command END is `endCall` here, since `end` is a word of Lean's. -/
inductive Instr where
  | start (klen : Klen)
  | data (din : Byte)
  | endCall
  | dispatchIdle
  | chkkey
  | sinit
  | kbeg
  | kstep
  | prst
  | dispatchReady
  | pstep
  | xorb
  | endc
  deriving DecidableEq, Repr

/-- The two formats of R93: a command word of the CMD channel, or a code of SEQ. -/
inductive Code where
  | cmd16 (w : Word)
  | uop4 (c : SeqBits)
  deriving DecidableEq, Repr

/-- Why a code stands for no instruction: the three cases of R84 for a word, and R26 for a SEQ code above 9. -/
inductive Reject where
  /-- R84 (a): OPC is 0000 or 0100 to 1111. -/
  | reservedOpcode (opc : SeqBits)
  /-- R84 (b): OPC = 0010 and ARG[11:8] is not 0000. -/
  | dataFieldNotZero
  /-- R84 (c): OPC = 0011 and ARG is not 0. -/
  | endFieldNotZero
  /-- R26: codes 10 to 15 select nothing. -/
  | unusedSeqCode (c : SeqBits)
  deriving DecidableEq, Repr

/-- The complete list of errors (60_exceptions.md R180). -/
inductive ErrCode where
  | invalidKey
  | protocol
  | illegalCommand
  deriving DecidableEq, Repr

/-- The three kinds of response (R87). -/
inductive Response where
  | ack
  | byte (val : Byte)
  | err (e : ErrCode)
  deriving DecidableEq, Repr

/-- A number of the assembler: written out, or the symbol KEYLEN that `.key` defines (R91). -/
inductive AsmNum where
  | lit (n : Nat)
  | keylen
  deriving DecidableEq, Repr

/-- One line of an assembler program (R90, R91, R92). A quoted text is its list of character codes. -/
inductive AsmLine where
  | start (n : AsmNum)
  | data (b : AsmNum)
  | endCall
  | word (w : AsmNum)
  | key (bs : List Nat)
  | datas (bs : List Nat)
  | transform (bs : List Nat)
  | blank
  deriving DecidableEq, Repr

/-- What an assembled line asks the host to do: place a key, send a word, or run a TRANSFORM, whose later words are sent
only if START was not answered with ERR (R91, R92). -/
inductive AsmItem where
  | placeKey (bs : List Byte)
  | send (w : Word)
  | call (startWord : Word) (later : List Word)
  deriving DecidableEq, Repr

end Sys2Proof
end

