-- ==== Sys2Proof/WellFormed.lean ====
section
/-! DEFINITION. Checks on terms. An `Instr` cannot be ill-formed: every operand has exactly the width of its field and
every value of the field is legal (30_encoding.md R81, R82). What can be ill-formed is an assembler line, whose numbers are
unbounded ("An operand out of range is an assembly error", R90), and a 16-bit word taken as a response (R87). -/

namespace Sys2Proof

/-- The number an operand stands for, `none` for KEYLEN before any `.key` (R91). -/
def AsmNum.value (keylen : Option Nat) : AsmNum → Option Nat
  | .lit n => some n
  | .keylen => keylen

/-- The operand has a value, at most `max`. -/
def AsmNum.inRange (keylen : Option Nat) (max : Nat) (n : AsmNum) : Bool :=
  match n.value keylen with
  | some v => decide (v ≤ max)
  | none => false

/-- Every number of the list is a byte. -/
def allBytes (bs : List Nat) : Bool := bs.all fun b => decide (b ≤ 255)

/-- The operand ranges of R90 to R92. KEYLEN is an operand of the START that TRANSFORM expands to, so it is range-checked
there as well. -/
def AsmLine.wf (keylen : Option Nat) : AsmLine → Bool
  | .start n => n.inRange keylen 4095
  | .data b => b.inRange keylen 255
  | .endCall => true
  | .word w => w.inRange keylen 65535
  | .key bs => allBytes bs
  | .datas bs => allBytes bs
  | .transform bs => AsmNum.keylen.inRange keylen 4095 && allBytes bs
  | .blank => true

/-- The words the engine may emit (R87): ACK, BYTE with any value, ERR with code 1 to 3. "No other word is ever emitted". -/
def isResponseWord (w : Word) : Bool :=
  w == 0x1000#16 || w &&& 0xFF00#16 == 0x2000#16 || w == 0xF001#16 || w == 0xF002#16 || w == 0xF003#16

/-- What the row of opcode_table.json (and R93) gives an instruction: width of the code, match and mask. -/
def tableRow : Instr → Nat × Nat × Nat
  | .start _ => (16, 0x1000, 0xF000)
  | .data _ => (16, 0x2000, 0xFF00)
  | .endCall => (16, 0x3000, 0xFFFF)
  | .dispatchIdle => (4, 0x0, 0xF)
  | .chkkey => (4, 0x1, 0xF)
  | .sinit => (4, 0x2, 0xF)
  | .kbeg => (4, 0x3, 0xF)
  | .kstep => (4, 0x4, 0xF)
  | .prst => (4, 0x5, 0xF)
  | .dispatchReady => (4, 0x6, 0xF)
  | .pstep => (4, 0x7, 0xF)
  | .xorb => (4, 0x8, 0xF)
  | .endc => (4, 0x9, 0xF)

end Sys2Proof
end

