-- ==== Sys2Proof/Decode.lean ====
section
/-! DEFINITION. Decoding (total, rejecting by name) and encoding of commands, micro-operations and responses
(30_encoding.md R80 to R94). -/

namespace Sys2Proof

/-- OPC, bits 15:12 of a command word (R80). -/
def opcField (w : Word) : SeqBits := w.extractLsb' 12 4

/-- ARG, bits 11:0 (R80); in a START, KLEN (R81). -/
def argField (w : Word) : Klen := w.extractLsb' 0 12

/-- ARG[11:8], which must be zero in a DATA word (R82). -/
def mbzField (w : Word) : SeqBits := w.extractLsb' 8 4

/-- ARG[7:0], the input byte of a DATA word (R82). -/
def dinField (w : Word) : Byte := w.extractLsb' 0 8

/-- The function `decode` of R94, with ILLEGAL split by the three cases of R84. It reads the word only. -/
def decodeCommand (w : Word) : Except Reject Instr :=
  if opcField w = 0b0001#4 then .ok (.start (argField w))
  else if opcField w = 0b0010#4 then
    if mbzField w = 0#4 then .ok (.data (dinField w)) else .error .dataFieldNotZero
  else if opcField w = 0b0011#4 then
    if argField w = 0#12 then .ok .endCall else .error .endFieldNotZero
  else .error (.reservedOpcode (opcField w))

/-- The micro-operation a SEQ code selects (R26, R88); codes 10 to 15 select none. -/
def decodeUop (c : SeqBits) : Except Reject Instr :=
  match c.toNat with
  | 0 => .ok .dispatchIdle
  | 1 => .ok .chkkey
  | 2 => .ok .sinit
  | 3 => .ok .kbeg
  | 4 => .ok .kstep
  | 5 => .ok .prst
  | 6 => .ok .dispatchReady
  | 7 => .ok .pstep
  | 8 => .ok .xorb
  | 9 => .ok .endc
  | _ => .error (.unusedSeqCode c)

/-- Decoding of either format. -/
def decode : Code → Except Reject Instr
  | .cmd16 w => decodeCommand w
  | .uop4 c => decodeUop c

/-- The START word: `0x1000 + KLEN` (R81). -/
def startWord (klen : Klen) : Word := 0x1000#16 + klen.setWidth 16

/-- The DATA word: `0x2000 + DIN` (R82). -/
def dataWord (din : Byte) : Word := 0x2000#16 + din.setWidth 16

/-- The END word (R83). -/
def endWord : Word := 0x3000#16

/-- The code of an instruction (R93). -/
def encode : Instr → Code
  | .start klen => .cmd16 (startWord klen)
  | .data din => .cmd16 (dataWord din)
  | .endCall => .cmd16 endWord
  | .dispatchIdle => .uop4 0b0000#4
  | .chkkey => .uop4 0b0001#4
  | .sinit => .uop4 0b0010#4
  | .kbeg => .uop4 0b0011#4
  | .kstep => .uop4 0b0100#4
  | .prst => .uop4 0b0101#4
  | .dispatchReady => .uop4 0b0110#4
  | .pstep => .uop4 0b0111#4
  | .xorb => .uop4 0b1000#4
  | .endc => .uop4 0b1001#4

/-- The bits of a code as a natural number, bit 0 the least significant. -/
def Code.bits : Code → Nat
  | .cmd16 w => w.toNat
  | .uop4 c => c.toNat

/-- The codes of R180. -/
def ErrCode.code : ErrCode → Byte
  | .invalidKey => 1
  | .protocol => 2
  | .illegalCommand => 3

/-- The word of a response: KIND in 15:12, zeros in 11:8, VAL in 7:0 (R86, R87). -/
def responseWord : Response → Word
  | .ack => 0x1000#16
  | .byte val => 0x2000#16 + val.setWidth 16
  | .err e => 0xF000#16 + e.code.setWidth 16

/-- The instruction the decoder reads from bits numbered as spec/opcode_table.json numbers them. A row of 4 bits (format
UOP4, one whole byte here) is a SEQ code; a row of 16 bits (format CMD16) is a command word. The two formats are never on
one channel, so the width tells them apart (R88). -/
def decodeTableWord (nbits w : Nat) : Option Instr :=
  if nbits ≤ 8 then
    if w < 16 then (decodeUop (BitVec.ofNat 4 w)).toOption else none
  else if w < 65536 then (decodeCommand (BitVec.ofNat 16 w)).toOption else none

end Sys2Proof
end

