-- ==== Sys2Proof/Config.lean ====
section
/-! DEFINITION. What the spec leaves open. FREE VALUES are opaque constants: nothing in Lean can evaluate one, so a claim
that is provable is true whatever they are (spec 00_scope.md R13, 93_implementation_defined.md U1, U3, U9, treatment
"any value"). PARAMETERS the spec calls OPEN (00_scope.md R7) are plain data, carried by the state and never written. -/

namespace Sys2Proof.Config

/-- The value slot `a` of S holds after draw `n` (reset or ENDC): "unspecified" (R36, R171). Log entries 2 and 3. -/
opaque freeSlot : Nat → Byte → Byte

/-- The value I holds after draw `n` (R36, R171). -/
opaque freeI : Nat → Byte

/-- The value J holds after draw `n` (R36, R171). -/
opaque freeJ : Nat → Byte

/-- The value Z holds after draw `n` (R36, R171). -/
opaque freeZ : Nat → Byte

/-- The value CMDR holds after draw `n` (R36, R210; ENDC does not draw it). -/
opaque freeCmdr : Nat → Word

/-- The byte at an address of the KEY space where the host has placed none (U9). Log entry 4. -/
opaque unplacedKeyByte : Byte → Byte

/-- The key address `I mod 0`, which the source calls undefined (R10, R131, U1). Log entry 6. -/
opaque modByZero : Byte → Byte

end Sys2Proof.Config

namespace Sys2Proof

/-- CHANNEL_DEPTH, "any value of 1 or more" (R7), so that 0 cannot be expressed: an unbounded queue, or a channel that holds
one word and `more` others (R31, R32, U10). -/
inductive Depth where
  | unbounded
  | onePlus (more : Nat)
  deriving DecidableEq, Repr

/-- How many words a channel of this depth can hold, if that is bounded. -/
def Depth.capacity : Depth → Option Nat
  | .unbounded => none
  | .onePlus more => some (more + 1)

/-- The OPEN parameters that one engine can show (R7). -/
structure Params where
  /-- CHANNEL_DEPTH, of both channels. -/
  depth : Depth
  /-- OBS_PORT: is the instrumented read-only view of S, I, J present (R193)? -/
  obsPort : Bool
  deriving DecidableEq, Repr

end Sys2Proof
end

