-- ==== Sys2Proof/Machine/State.lean ====
section
/-! DEFINITION. The state of one engine instance (10_state.md R20 to R36), the KEY space it reads (20_memory.md R52), the
OPEN parameters (00_scope.md R7) and the model's own two fields. Names are the spec's. -/

namespace Sys2Proof.Machine

/-- The ten codes of SEQ (R26). "a model's SEQ type should have exactly ten values, so that an eleventh cannot be
expressed". -/
inductive SeqCode where
  | idle | chk | init | kbeg | kstep | prst | ready | pstep | xorb | endc
  deriving DecidableEq, Repr

/-- The level of description a step is taken at (R14: "a model may take either level"). At `micro` every step is one
micro-operation. At `command` a command word taken in IDLE or READY is one atomic step (R111). Log entry 1. -/
inductive Level where
  | micro
  | command
  deriving DecidableEq, Repr

/-- The permutation state: 256 byte-valued slots (R20). -/
abbrev Slots := Vector Byte 256

/-- The slots whose slot `a` holds `f a`. -/
def Slots.tabulate (f : Byte → Byte) : Slots :=
  ⟨((List.range 256).map fun n => f (BitVec.ofNat 8 n)).toArray, by simp⟩

/-- The KEY space: the bytes the host has placed, addresses strictly rising and below 256 (R52, R53). An address that is not
listed holds a byte the host has not placed. -/
abbrev Memory := List Host.Cell

structure State where
  /-- The permutation state S, the engine's register file (R20). -/
  S : Slots
  /-- The running index I (R23). -/
  I : Byte
  /-- The running index J (R23). -/
  J : Byte
  /-- The sequencer register, the engine's program counter (R25, R26). -/
  SEQ : SeqCode
  /-- The command register (R29). -/
  CMDR : Word
  /-- The keystream latch (R34). -/
  Z : Byte
  /-- The command channel, oldest word first (R31). -/
  CMD : List Word
  /-- The response channel, oldest word first (R32). -/
  RSP : List Word
  /-- The host's key memory (R30, R52). The engine reads it and never writes it. -/
  KEY : Memory
  /-- CHANNEL_DEPTH and OBS_PORT of this instance (R7). Nothing writes them. -/
  params : Params
  /-- The level of description (R14); the model's own field. Nothing the machine does writes it. -/
  level : Level
  /-- The command words the host has sent and whose response it has not received, oldest first: the host pairs responses with
  commands by order alone (R217), and its duty on the key lasts from sending START to receiving the response (R54). Host-side
  bookkeeping, the model's own field; the engine neither reads nor writes it. Log entry 7. -/
  sent : List Word
  /-- How many times free values have been drawn (R13); the model's own field. -/
  draw : Nat
  deriving DecidableEq, Repr

/-- The engine has no condition that stops it: every error is a response word, after which it handles the next command
(60_exceptions.md R180, R184, R186, R196). So there is no fault: nobody raises one. -/
inductive Fault where
  deriving DecidableEq, Repr

/-- Why a step has no meaning. -/
inductive Refusal where
  /-- Raised by `exec` for an instruction that has no meaning yet; no arm does. Safe: nothing is proved of such a run. -/
  | notModelled (mnemonic : String)
  deriving DecidableEq, Repr

/-- What the engine takes up next (R14, R88, R110). -/
inductive Fetched where
  /-- An instruction: the micro-operation of SEQ, or at command level the command of the oldest word. -/
  | instr (i : Instr)
  /-- At command level, an oldest word that decodes to no command. -/
  | illegal (w : Word)
  /-- At command level, an empty CMD in IDLE or READY: nothing is enabled. -/
  | waiting
  deriving DecidableEq, Repr

/-- What the host, or the reset input, can do to an engine from outside (R31, R32, R52, R210). -/
inductive HostMove where
  | send (w : Word)
  | take
  | placeKey (a b : Byte)
  | reset
  deriving DecidableEq, Repr

/-- One event of a run: a step of the engine, or a move of the host. -/
inductive Event where
  | engine
  | host (m : HostMove)
  deriving DecidableEq, Repr

/-- Power-on (R36, R210, R211): SEQ is IDLE and the channels are empty. S, I, J, CMDR and Z are "unspecified"; each holds
the free value of draw 0 (U3: "They must not be modelled as zero or as the identity permutation"). Log entries 1 to 5. -/
def State.reset : State where
  S := Slots.tabulate (Config.freeSlot 0)
  I := Config.freeI 0
  J := Config.freeJ 0
  SEQ := .idle
  CMDR := Config.freeCmdr 0
  Z := Config.freeZ 0
  CMD := []
  RSP := []
  KEY := []
  params := { depth := .unbounded, obsPort := false }
  level := .micro
  sent := []
  draw := 1

end Sys2Proof.Machine
end

