-- ==== Sys2Proof/Machine/Ops.lean ====
section
/-! DEFINITION. The state access primitives of 00_scope.md R11 and R12: slots and `swap`, the key read port, the two
channels, the discard, and `raise`, the engine's one way of taking an exception (60_exceptions.md R184). There is no return
from one ("There is no return instruction and nothing to restore", R186): the engine is in a wait state again and goes on. -/

namespace Sys2Proof.Machine

/-- `S[a]` (R11). Every 8-bit index is a slot, so no access is out of range (R20). -/
def slot (S : Slots) (a : Byte) : Byte := S[a.toNat]'(a.isLt)

/-- `S[a] <- v` (R11). -/
def setSlot (S : Slots) (a v : Byte) : Slots := S.set a.toNat v a.isLt

/-- `swap(S, a, b)`: t <- S[a]; S[a] <- S[b]; S[b] <- t (R11). -/
def swap (S : Slots) (a b : Byte) : Slots :=
  let t := slot S a
  let S₁ := setSlot S a (slot S b)
  setSlot S₁ b t

/-- The identity permutation: slot `m` holds `m` (R132). -/
def identity : Slots := Slots.tabulate fun m => m

/-- The byte the host has placed at an address of the KEY space, if any. -/
def Memory.read : Memory → Nat → Option Byte
  | [], _ => none
  | (a, b) :: m, k => if k = a then some b else Memory.read m k

/-- The host places a byte; the addresses stay strictly rising. -/
def Memory.write : Memory → Nat → Byte → Memory
  | [], k, v => [(k, v)]
  | (a, b) :: m, k, v =>
    if k < a then (k, v) :: (a, b) :: m
    else if k = a then (k, v) :: m
    else (a, b) :: Memory.write m k v

/-- Every listed address is at least `lo` and they rise strictly. -/
def Memory.risingFrom : Nat → Memory → Bool
  | _, [] => true
  | lo, (a, _) :: m => decide (lo ≤ a) && Memory.risingFrom (a + 1) m

/-- The canonical form of the KEY space: strictly rising addresses, all 8-bit (R52). Every listed byte differs from what an
unlisted address holds, which is no placed byte at all. -/
def Memory.wf (m : Memory) : Bool := Memory.risingFrom 0 m && m.all fun c => decide (c.1 < 256)

/-- `KeyRead(a)` (R12, R52). Where the host has placed no byte the read still answers: "the engine reads addresses ...
whatever is there" (U9). -/
def keyRead (s : State) (a : Byte) : Byte :=
  match Memory.read s.KEY a.toNat with
  | some b => b
  | none => Config.unplacedKeyByte a

/-- Does a channel of the given CHANNEL_DEPTH hold as many words as it can (R31, R32)? -/
def channelFull (depth : Depth) (ch : List Word) : Bool :=
  match depth.capacity with
  | none => false
  | some d => decide (d ≤ ch.length)

/-- Is RSP full, so that an emitting micro-operation waits (R32)? -/
def rspFull (s : State) : Bool := channelFull s.params.depth s.RSP

/-- `CmdTake()`: the oldest word leaves CMD (R12). -/
def cmdTake (s : State) : State := { s with CMD := s.CMD.tail }

/-- `RspEmit(w)` (R12). -/
def rspEmit (r : Response) (s : State) : State := { s with RSP := s.RSP ++ [responseWord r] }

/-- `raise <Error>(code)` (R12, R184): the ERR word is appended and SEQ is the wait state `back`. Nothing is saved, no mode
changes, no vector is taken. -/
def raiseError (e : ErrCode) (back : SeqCode) (s : State) : State := { rspEmit (.err e) s with SEQ := back }

/-- DISPATCH refuses the word `w` it takes (R110, R182, R183): CMDR is written, the error is raised, SEQ keeps its wait
state. With RSP full it waits instead, the word still in CMD (R32). -/
def refuseWord (e : ErrCode) (w : Word) (s : State) : State :=
  if rspFull s then s else raiseError e s.SEQ { cmdTake s with CMDR := w }

/-- DISPATCH accepts the word `w` it takes: CMDR is written and SEQ is `go` (R110). -/
def acceptWord (w : Word) (go : SeqCode) (s : State) : State := { cmdTake s with CMDR := w, SEQ := go }

/-- The discard of call exit and of reset: S, I, J and Z become "unspecified" (R13, R171, R210), that is, free values of a
new draw. -/
def discardCall (s : State) : State :=
  { s with
    S := Slots.tabulate (Config.freeSlot s.draw), I := Config.freeI s.draw, J := Config.freeJ s.draw
    Z := Config.freeZ s.draw, draw := s.draw + 1 }

/-- Is SEQ a wait state, where command words are taken (R31)? -/
def SeqCode.isWait : SeqCode → Bool
  | .idle | .ready => true
  | .chk | .init | .kbeg | .kstep | .prst | .pstep | .xorb | .endc => false

/-- The micro-operation SEQ selects (R26). -/
def SeqCode.uop : SeqCode → Instr
  | .idle => .dispatchIdle
  | .chk => .chkkey
  | .init => .sinit
  | .kbeg => .kbeg
  | .kstep => .kstep
  | .prst => .prst
  | .ready => .dispatchReady
  | .pstep => .pstep
  | .xorb => .xorb
  | .endc => .endc

/-- The number of a SEQ code (R26). -/
def SeqCode.bits : SeqCode → SeqBits
  | .idle => 0
  | .chk => 1
  | .init => 2
  | .kbeg => 3
  | .kstep => 4
  | .prst => 5
  | .ready => 6
  | .pstep => 7
  | .xorb => 8
  | .endc => 9

/-- The SEQ code that selects a micro-operation; the commands are selected by no SEQ code (R88). -/
def seqOf : Instr → Option SeqCode
  | .start _ | .data _ | .endCall => none
  | .dispatchIdle => some .idle
  | .chkkey => some .chk
  | .sinit => some .init
  | .kbeg => some .kbeg
  | .kstep => some .kstep
  | .prst => some .prst
  | .dispatchReady => some .ready
  | .pstep => some .pstep
  | .xorb => some .xorb
  | .endc => some .endc

end Sys2Proof.Machine
end

