-- ==== Sys2Proof/Machine/Operands.lean ====
section
/-! DEFINITION. The operand forms: the two fields of CMDR (10_state.md R29, 30_encoding.md R89), the key address
(41_ksa_unit.md R134) and the index sums of the two phases (R134, R152). -/

namespace Sys2Proof.Machine

/-- KLEN or L: CMDR[11:0] as a natural number, 0 to 4095 (R29, R89). -/
def klenOf (cmdr : Word) : Nat := (argField cmdr).toNat

/-- DIN: CMDR[7:0] (R29, R89). -/
def dinOf (cmdr : Word) : Byte := dinField cmdr

/-- The key address `i mod L`, which fits 8 bits (R53, R134). For L = 0 the remainder is undefined (R10, U1): a free value. -/
def keyAddr (L : Nat) (i : Byte) : Byte :=
  if L = 0 then Config.modByZero i else BitVec.ofNat 8 (i.toNat % L)

/-- The new J of a key-schedule iteration: `(J + S[I] + kb) mod 256`, S before the swap (R134). -/
def ksaIndex (S : Slots) (i j kb : Byte) : Byte := j + slot S i + kb

/-- The new J of a keystream step: `(J + S[I]) mod 256`, the new I (R152). -/
def prgaIndex (S : Slots) (i j : Byte) : Byte := j + slot S i

/-- The keystream byte: slot `(S[I] + S[J]) mod 256`, S after the swap (R152). -/
def keystreamByte (S : Slots) (i j : Byte) : Byte := slot S (slot S i + slot S j)

end Sys2Proof.Machine
end

