-- ==== Sys2Proof/Machine/Flags.lean ====
section
/-! DEFINITION. The engine has no status flags, no condition codes and no predicates (10_state.md R27). The two conditions
the sequencer tests "are computed and used inside one micro-operation and not kept". -/

namespace Sys2Proof.Machine

/-- `CMDR[11:0] = 0`, tested by CHKKEY (R27, R131). -/
def keyEmpty (cmdr : Word) : Bool := decide (klenOf cmdr = 0)

/-- `I = 255`, tested by KSTEP (R27, R134). -/
def sweepDone (i : Byte) : Bool := decide (i = 255)

end Sys2Proof.Machine
end

