-- ==== Sys2Proof/Machine/Combine.lean ====
section
/-! DEFINITION. The byte XOR combiner and call exit: XORB and ENDC (43_xor_combiner.md R170, R171). Both emit, so with RSP
full both wait (10_state.md R32). -/

namespace Sys2Proof.Machine

/-- XORB (R170): output[k] = input[k] xor z[k]. -/
def execXorb (s : State) : Host.Outcome State Fault Refusal :=
  .next (if rspFull s then s else { rspEmit (.byte (dinOf s.CMDR ^^^ s.Z)) s with SEQ := .ready })

/-- ENDC (R171): the discard, the ACK of END, SEQ <- IDLE. CMDR keeps the END word. -/
def execEndc (s : State) : Host.Outcome State Fault Refusal :=
  .next (if rspFull s then s else { rspEmit .ack (discardCall s) with SEQ := .idle })

end Sys2Proof.Machine
end

