-- ==== Sys2Proof/Machine/Ksa.lean ====
section
/-! DEFINITION. The KSA permutation unit: CHKKEY, SINIT, KBEG, KSTEP (41_ksa_unit.md R131 to R134), and the whole of phase 1
as one function of the key bytes, used by the command START and by the reference function. -/

namespace Sys2Proof.Machine

/-- CHKKEY (R131). On failure it emits, so with RSP full it waits (R32). -/
def execChkkey (s : State) : Host.Outcome State Fault Refusal :=
  .next
    (if keyEmpty s.CMDR then
      if rspFull s then s else raiseError .invalidKey .idle s
    else { s with SEQ := .init })

/-- SINIT (R132). -/
def execSinit (s : State) : Host.Outcome State Fault Refusal := .next { s with S := identity, SEQ := .kbeg }

/-- KBEG (R133). -/
def execKbeg (s : State) : Host.Outcome State Fault Refusal := .next { s with J := 0, I := 0, SEQ := .kstep }

/-- The key byte KSTEP adds: `KeyRead(I mod L)` (R134). -/
def kstepKeyByte (s : State) : Byte := keyRead s (keyAddr (klenOf s.CMDR) s.I)

/-- KSTEP (R134): J accumulates, the slots at I and at the new J are exchanged, I steps and wraps out of 255. -/
def execKstep (s : State) : Host.Outcome State Fault Refusal :=
  let j := ksaIndex s.S s.I s.J (kstepKeyByte s)
  .next
    { s with
      J := j
      S := swap s.S s.I j
      I := if sweepDone s.I then 0 else s.I + 1
      SEQ := if sweepDone s.I then .prst else .kstep }

/-- `n` iterations of the loop of R112 and R115 from loop variable `i`: j <- (j + S[i] + kb i) mod 256; swap(S, i, j). -/
def ksaRounds (kb : Nat → Byte) : Nat → Nat → Byte → Slots → Slots
  | 0, _, _, S => S
  | n + 1, i, j, S =>
    let j' := ksaIndex S (BitVec.ofNat 8 i) j (kb i)
    ksaRounds kb n (i + 1) j' (swap S (BitVec.ofNat 8 i) j')

/-- Phase 1 whole (R130, R136): the sweep over i = 0 to 255 from the identity, `kb i` the key byte of iteration i. -/
def ksa (kb : Nat → Byte) : Slots := ksaRounds kb 256 0 0 identity

end Sys2Proof.Machine
end

