-- ==== Sys2Proof/Machine/Prga.lean ====
section
/-! DEFINITION. The PRGA keystream generator: PRST and PSTEP (42_prga_generator.md R151, R152). -/

namespace Sys2Proof.Machine

/-- PRST (R151): it emits the ACK of START, so with RSP full it waits (R32). -/
def execPrst (s : State) : Host.Outcome State Fault Refusal :=
  .next (if rspFull s then s else { rspEmit .ack s with I := 0, J := 0, SEQ := .ready })

/-- Steps 2a to 2d for one position (R150): a, I <- I + 1; b, J <- J + S[I]; c, swap(S, I, J); d, Z. Each line sees the lines
before it. -/
def generate (s : State) : State :=
  let i := s.I + 1
  let j := prgaIndex s.S i s.J
  let S := swap s.S i j
  { s with I := i, J := j, S := S, Z := keystreamByte S i j }

/-- PSTEP (R152). -/
def execPstep (s : State) : Host.Outcome State Fault Refusal := .next { generate s with SEQ := .xorb }

end Sys2Proof.Machine
end

