-- ==== Sys2Proof/Machine/Commands.lean ====
section
/-! DEFINITION. The commands START, DATA and END as atomic transitions (40_engine_commands.md R111 to R114). Each takes its
own word, the oldest of CMD. Each emits one response, so with RSP full the whole command waits, its word still in CMD
(10_state.md R32; log entry 5). A command is taken only in a wait state (R31). -/

namespace Sys2Proof.Machine

/-- A command taken with SEQ in the wait state `admitted` has the effect `eff`; in the wait state `refused` it is answered
with Protocol (R182); at no other SEQ is it taken. `step` runs it only where `w` is the oldest word. Run by itself with another
word oldest, or with CMD empty, which the spec has no case for, it has its effect all the same and drops whatever word is
oldest: the model's choice (log entry 14). -/
def takeCommand (admitted refused : SeqCode) (w : Word) (eff : State → State) (s : State) : State :=
  if s.SEQ = admitted then
    if rspFull s then s else eff { cmdTake s with CMDR := w }
  else if s.SEQ = refused then refuseWord .protocol w s
  else s

/-- START in IDLE, after its word is taken (R112). -/
def startEffect (klen : Klen) (s : State) : State :=
  if klen = 0 then raiseError .invalidKey .idle s
  else
    { rspEmit .ack s with
      S := ksa fun i => keyRead s (keyAddr klen.toNat (BitVec.ofNat 8 i)), I := 0, J := 0, SEQ := .ready }

/-- DATA in READY, after its word is taken (R113). -/
def dataEffect (din : Byte) (s : State) : State :=
  let s₁ := generate s
  { rspEmit (.byte (din ^^^ s₁.Z)) s₁ with SEQ := .ready }

/-- END in READY, after its word is taken (R114). -/
def endEffect (s : State) : State := { rspEmit .ack (discardCall s) with SEQ := .idle }

/-- START klen (R112). -/
def execStart (klen : Klen) (s : State) : Host.Outcome State Fault Refusal :=
  .next (takeCommand .idle .ready (startWord klen) (startEffect klen) s)

/-- DATA din (R113). -/
def execData (din : Byte) (s : State) : Host.Outcome State Fault Refusal :=
  .next (takeCommand .ready .idle (dataWord din) (dataEffect din) s)

/-- END (R114). -/
def execEnd (s : State) : Host.Outcome State Fault Refusal :=
  .next (takeCommand .ready .idle endWord endEffect s)

end Sys2Proof.Machine
end

