-- ==== Sys2Proof/Machine/Control.lean ====
section
/-! DEFINITION. Engine control: the micro-operation DISPATCH in its two codes (40_engine_commands.md R110). -/

namespace Sys2Proof.Machine

/-- In IDLE, DISPATCH admits START and nothing else (R110, R182). -/
def admitsIdle : Instr → Option SeqCode
  | .start _ => some .chk
  | .data _ | .endCall => none
  | .dispatchIdle | .chkkey | .sinit | .kbeg | .kstep | .prst | .dispatchReady | .pstep | .xorb | .endc => none

/-- In READY, DISPATCH admits DATA and END and nothing else (R110, R182). -/
def admitsReady : Instr → Option SeqCode
  | .start _ => none
  | .data _ => some .pstep
  | .endCall => some .endc
  | .dispatchIdle | .chkkey | .sinit | .kbeg | .kstep | .prst | .dispatchReady | .pstep | .xorb | .endc => none

/-- DISPATCH (R110) in the wait state `code`, which admits what `admits` says. The encoding test comes before the state
test (R185). With CMD empty nothing is enabled and the engine waits (R31). -/
def dispatch (code : SeqCode) (admits : Instr → Option SeqCode) (s : State) : State :=
  if s.SEQ = code then
    match s.CMD with
    | [] => s
    | w :: _ =>
      match decodeCommand w with
      | .error _ => refuseWord .illegalCommand w s
      | .ok c =>
        match admits c with
        | some go => acceptWord w go s
        | none => refuseWord .protocol w s
  else s

/-- DISPATCH with SEQ code 0000 (R110, R26). -/
def execDispatchIdle (s : State) : Host.Outcome State Fault Refusal := .next (dispatch .idle admitsIdle s)

/-- DISPATCH with SEQ code 0110 (R110, R26). -/
def execDispatchReady (s : State) : Host.Outcome State Fault Refusal := .next (dispatch .ready admitsReady s)

end Sys2Proof.Machine
end

