-- ==== Sys2Proof/Machine/Dispatch.lean ====
section
/-! DEFINITION. One arm per constructor of `Instr` (spec/opcode_table.json). -/

namespace Sys2Proof.Machine

def exec (i : Instr) (s : State) : Host.Outcome State Fault Refusal :=
  match i with
  -- the commands, format CMD16
  | .start klen => Sys2Proof.Machine.execStart klen s
  | .data din => Sys2Proof.Machine.execData din s
  | .endCall => Sys2Proof.Machine.execEnd s
  -- the micro-operations, format UOP4
  | .dispatchIdle => Sys2Proof.Machine.execDispatchIdle s
  | .chkkey => Sys2Proof.Machine.execChkkey s
  | .sinit => Sys2Proof.Machine.execSinit s
  | .kbeg => Sys2Proof.Machine.execKbeg s
  | .kstep => Sys2Proof.Machine.execKstep s
  | .prst => Sys2Proof.Machine.execPrst s
  | .dispatchReady => Sys2Proof.Machine.execDispatchReady s
  | .pstep => Sys2Proof.Machine.execPstep s
  | .xorb => Sys2Proof.Machine.execXorb s
  | .endc => Sys2Proof.Machine.execEndc s

end Sys2Proof.Machine
end

