-- ==== Sys2Proof/Machine/Fetch.lean ====
section
/-! DEFINITION. What the engine takes up next, and how an instruction is put where it is taken from. The engine fetches no
instruction from memory (20_memory.md R62): SEQ selects a micro-operation (R88), and at command level the oldest word of CMD
selects a command (R111). -/

namespace Sys2Proof.Machine

/-- What a step takes up (R14). At micro level it is always SEQ's micro-operation; DISPATCH itself waits when CMD is empty. At
command level a wait state takes the oldest word as a command; any other SEQ still runs its micro-operation. -/
def fetch (s : State) : Fetched :=
  match s.level, s.SEQ.isWait with
  | .command, true =>
    match s.CMD with
    | [] => .waiting
    | w :: _ =>
      match decodeCommand w with
      | .ok i => .instr i
      | .error _ => .illegal w
  | .command, false => .instr s.SEQ.uop
  | .micro, _ => .instr s.SEQ.uop

/-- SEQ selects the micro-operation of a 4-bit code, at micro level (R88). Codes 10 to 15 cannot be in SEQ (R26). -/
def placeUop (c : SeqBits) (s : State) : State :=
  match decodeUop c with
  | .ok i =>
    match seqOf i with
    | some q => { s with SEQ := q, level := .micro }
    | none => s
  | .error _ => s

/-- A command word becomes the oldest of CMD, at command level, in a wait state (R31, R111). -/
def placeCommand (w : Word) (s : State) : State :=
  { s with CMD := w :: s.CMD, SEQ := if s.SEQ.isWait then s.SEQ else .idle, level := .command }

/-- The bits of one opcode-table row, put where a step takes its instruction from. -/
def placeTableWord (s : State) (nbits w : Nat) : State :=
  if nbits ≤ 8 then placeUop (BitVec.ofNat 4 w) s else placeCommand (BitVec.ofNat 16 w) s

end Sys2Proof.Machine
end

