-- ==== Sys2Proof/Machine/Step.lean ====
section
/-! DEFINITION. One step of the engine (10_state.md R25, 00_scope.md R14): what `fetch` takes up is executed, an illegal word is
refused (R183), and with nothing enabled the engine waits with its state intact (R31, R194). -/

namespace Sys2Proof.Machine

def step (s : State) : Host.Outcome State Fault Refusal :=
  match fetch s with
  | .instr i => exec i s
  | .illegal w => .next (refuseWord .illegalCommand w s)
  | .waiting => .next s

/-- `s` with the instruction of an opcode-table row as what its next step takes up. -/
def State.withFetchWord (s : State) (nbits w : Nat) : State := placeTableWord s nbits w

end Sys2Proof.Machine
end

