-- ==== Sys2Proof/Machine/Asm.lean ====
section
/-! DEFINITION. The assembler language of 30_encoding.md R90 to R92: program text to lines, lines to what the host does. -/

namespace Sys2Proof.Asm

/-- Bytes of a list already checked to be bytes. -/
def toBytes (bs : List Nat) : List Byte := bs.map (BitVec.ofNat 8)

/-- The command words of `DATAS b0 ... bn`: one DATA per byte, in order (R92). -/
def datasWords (bs : List Nat) : List Word := (toBytes bs).map dataWord

/-- One line, given the KEYLEN in force; `none` is an assembly error (R90). -/
def assembleLine (keylen : Option Nat) (l : AsmLine) : Option (List AsmItem) :=
  if l.wf keylen then
    match l with
    | .start n => (n.value keylen).map fun v => [.send (startWord (BitVec.ofNat 12 v))]
    | .data b => (b.value keylen).map fun v => [.send (dataWord (BitVec.ofNat 8 v))]
    | .endCall => some [.send endWord]
    | .word w => (w.value keylen).map fun v => [.send (BitVec.ofNat 16 v)]
    | .key bs => some [.placeKey (toBytes bs)]
    | .datas bs => some ((datasWords bs).map .send)
    | .transform bs => keylen.map fun v => [.call (startWord (BitVec.ofNat 12 v)) (datasWords bs ++ [endWord])]
    | .blank => some []
  else none

/-- The KEYLEN after a line: `.key` defines it, "It stays in force until the next .key" (R91). -/
def keylenAfter (keylen : Option Nat) : AsmLine → Option Nat
  | .key bs => some bs.length
  | .start _ | .data _ | .endCall | .word _ | .datas _ | .transform _ | .blank => keylen

/-- A program, from the KEYLEN in force. -/
def assembleFrom (keylen : Option Nat) : List AsmLine → Option (List AsmItem)
  | [] => some []
  | l :: ls =>
    match assembleLine keylen l, assembleFrom (keylenAfter keylen l) ls with
    | some is, some rest => some (is ++ rest)
    | _, _ => none

/-- A whole program; before the first `.key` there is no KEYLEN. -/
def assemble (p : List AsmLine) : Option (List AsmItem) := assembleFrom none p

/-- The command words an item asks the host to send, an answer of ERR to START left aside. -/
def itemWords : AsmItem → List Word
  | .placeKey _ => []
  | .send w => [w]
  | .call w later => w :: later

/-! The text form (R90, R91): `;` starts a comment, mnemonics are upper case, a number is decimal or `0x` hexadecimal, a
quoted text is the list of its character codes (ASCII, K1). Tokens are parted by blanks, and a quote ends the word before it
and starts a token without one. A quoted character without an ASCII code stands for its code point, which is an assembly error
above 255. Where the spec is silent these are the model's choices (log entry 15). -/

/-- A token of a line. -/
abbrev Token := List Char ⊕ List Nat

/-- The characters up to a closing quote, and what follows it. -/
def quoted : List Char → List Char → Option (List Char × List Char)
  | _, [] => none
  | acc, c :: cs => if c = '"' then some (acc.reverse, cs) else quoted (c :: acc) cs

/-- Is the character a blank? -/
def isBlank (c : Char) : Bool := c = ' ' || c = '\t' || c = '\r'

/-- Adds the word being read, if any, to the tokens. -/
def flush (word : List Char) (ts : List Token) : List Token :=
  if word.isEmpty then ts else .inl word.reverse :: ts

/-- The tokens of a line; `fuel` is the length of the line. `none` for a quote that does not close. A quoted text needs no blank
before or after it, and its characters are code points (log entry 15). -/
def tokens : Nat → List Char → List Char → List Token → Option (List Token)
  | 0, _, word, ts => some (flush word ts).reverse
  | _ + 1, [], word, ts => some (flush word ts).reverse
  | n + 1, c :: cs, word, ts =>
    if c = ';' then some (flush word ts).reverse
    else if isBlank c then tokens n cs [] (flush word ts)
    else if c = '"' then
      match quoted [] cs with
      | some (text, rest) => tokens n rest [] (.inr (text.map Char.toNat) :: flush word ts)
      | none => none
    else tokens n cs (c :: word) ts

/-- The value of a digit in base 16. -/
def digit (c : Char) : Option Nat :=
  if '0' ≤ c ∧ c ≤ '9' then some (c.toNat - '0'.toNat)
  else if 'a' ≤ c ∧ c ≤ 'f' then some (c.toNat - 'a'.toNat + 10)
  else if 'A' ≤ c ∧ c ≤ 'F' then some (c.toNat - 'A'.toNat + 10)
  else none

/-- The digits of a number in a base, after the value `acc`. -/
def digits (base acc : Nat) : List Char → Option Nat
  | [] => some acc
  | c :: cs =>
    match digit c with
    | some d => if d < base then digits base (acc * base + d) cs else none
    | none => none

/-- A number: decimal, or hexadecimal with `0x` (R90). -/
def number : List Char → Option Nat
  | [] => none
  | '0' :: 'x' :: c :: cs => digits 16 0 (c :: cs)
  | c :: cs => digits 10 0 (c :: cs)

/-- An operand of START, DATA or WORD: a number or KEYLEN (log entry 15). -/
def operand (t : List Char) : Option AsmNum :=
  if t = ['K', 'E', 'Y', 'L', 'E', 'N'] then some .keylen else (number t).map .lit

/-- A list of byte numbers, or one quoted text (R91, R92). The model's choices (log entry 15): an item is a number written out, so
KEYLEN is an assembly error here, in `.key`, DATAS and TRANSFORM, although the line DATA KEYLEN is accepted; and a quoted text
stands alone, not among numbers or other texts. -/
def byteList : List Token → Option (List Nat)
  | [.inr text] => some text
  | ts => ts.mapM fun t =>
    match t with
    | .inl w => number w
    | .inr _ => none

/-- The line that a mnemonic and its operands stand for. -/
def lineOf (mnemonic : List Char) (ops : List Token) : Option AsmLine :=
  if mnemonic = ['S', 'T', 'A', 'R', 'T'] then
    match ops with
    | [.inl t] => (operand t).map .start
    | _ => none
  else if mnemonic = ['D', 'A', 'T', 'A'] then
    match ops with
    | [.inl t] => (operand t).map .data
    | _ => none
  else if mnemonic = ['W', 'O', 'R', 'D'] then
    match ops with
    | [.inl t] => (operand t).map .word
    | _ => none
  else if mnemonic = ['E', 'N', 'D'] then if ops.isEmpty then some .endCall else none
  else if mnemonic = ['.', 'k', 'e', 'y'] then (byteList ops).map .key
  else if mnemonic = ['D', 'A', 'T', 'A', 'S'] then (byteList ops).map .datas
  else if mnemonic = ['T', 'R', 'A', 'N', 'S', 'F', 'O', 'R', 'M'] then (byteList ops).map .transform
  else none

/-- One line of program text; `none` is an assembly error. -/
def parseLine (cs : List Char) : Option AsmLine :=
  match tokens cs.length cs [] [] with
  | none => none
  | some [] => some .blank
  | some (.inl m :: ops) => lineOf m ops
  | some (.inr _ :: _) => none

/-- The lines of a text; `line` is the line being read, last character first. -/
def splitLines : List Char → List Char → List (List Char)
  | line, [] => [line.reverse]
  | line, c :: cs => if c = '\n' then line.reverse :: splitLines [] cs else splitLines (c :: line) cs

/-- Program text to what the host does; `none` is an assembly error. -/
def assembleText (cs : List Char) : Option (List AsmItem) :=
  match (splitLines [] cs).mapM parseLine with
  | some p => assemble p
  | none => none

end Sys2Proof.Asm
end

