-- ==== Sys2Proof/Machine/HostPort.lean ====
section
/-! DEFINITION. What can happen to an engine from outside: the host's moves on the two channels and on the KEY space
(10_state.md R31, R32; 20_memory.md R52, R54), the reset input (70_reset_and_hazards.md R210), the optional observation port
(60_exceptions.md R193), and runs that mix the engine's steps with them. -/

namespace Sys2Proof.Machine

/-- The host appends a word to CMD; with CMD full it waits (R31). -/
def hostSend (w : Word) (s : State) : State :=
  if channelFull s.params.depth s.CMD then s else { s with CMD := s.CMD ++ [w], sent := s.sent ++ [w] }

/-- The oldest response, if there is one (R32). -/
def hostSees (s : State) : Option Word := s.RSP.head?

/-- The host receives the oldest response, which answers the oldest word it has sent (R32, R217). -/
def hostTake (s : State) : State :=
  { s with RSP := s.RSP.tail, sent := if s.RSP.isEmpty then s.sent else s.sent.tail }

/-- Does a START word give its call the key byte at address `a`? The call's key is at 0 to min(L, 256) - 1 (R54). -/
def startHolds (a : Byte) (w : Word) : Bool :=
  decide (opcField w = 0b0001#4 ∧ a.toNat < min (klenOf w) 256)

/-- Must the host keep the key byte at `a`? It must "from the moment it sends START until it receives the response to that
START" (R54), for every START it has sent. -/
def keyHeld (a : Byte) (s : State) : Bool := s.sent.any (startHolds a)

/-- The host places a key byte. Of an address it must keep it "has no move that changes it" (R54, D28, U2; log entry 7). -/
def hostPlaceKey (a b : Byte) (s : State) : State :=
  if keyHeld a s then s else { s with KEY := Memory.write s.KEY a.toNat b }

/-- The reset input, between two micro-operations (R210, U12): SEQ <- IDLE, the channels are emptied, S, I, J, CMDR and Z
become unspecified; the KEY space is untouched (R211). No response is emitted, and none will come to a word sent before. -/
def hostReset (s : State) : State :=
  { discardCall s with CMDR := Config.freeCmdr s.draw, SEQ := .idle, CMD := [], RSP := [], sent := [] }

/-- A move from outside. -/
def hostMove : HostMove → State → State
  | .send w, s => hostSend w s
  | .take, s => hostTake s
  | .placeKey a b, s => hostPlaceKey a b s
  | .reset, s => hostReset s

/-- One event. The engine's step always answers a next state; the other two outcomes leave the state. -/
def applyEvent : Event → State → State
  | .engine, s =>
    match step s with
    | .next t => t
    | .fault _ => s
    | .refused _ => s
  | .host m, s => hostMove m s

/-- A run: the events in order. -/
def runEvents : List Event → State → State
  | [], s => s
  | e :: es, s => runEvents es (applyEvent e s)

/-- `n` steps of the engine with the host doing nothing. -/
def runSteps : Nat → State → State
  | 0, s => s
  | n + 1, s => runSteps n (applyEvent .engine s)

/-- OBS_PORT, where present (R193): S[a], I and J, sampled only while SEQ is IDLE or READY, with no effect on any state. -/
def observe (a : Byte) (s : State) : Option (Byte × Byte × Byte) :=
  if s.params.obsPort && s.SEQ.isWait then some (slot s.S a, s.I, s.J) else none

end Sys2Proof.Machine
end

