-- ==== Sys2Proof/Machine/Driver.lean ====
section
/-! DEFINITION. The host's side of a call (70_reset_and_hazards.md R213; 30_encoding.md R91, R92): a key is placed, a command
is sent and its response is received, and the rest of a TRANSFORM is sent only if START was acknowledged. The engine runs at
command level or at micro level. One strategy of many, the model's choice (log entry 17). -/

namespace Sys2Proof.Machine

/-- An engine, and the responses its host has received, oldest first. -/
structure Session where
  engine : State
  received : List Word
  deriving DecidableEq, Repr

/-- The micro-operations a command can take, at most (R222): 261 for START. -/
def commandSteps : Nat := 261

/-- Steps of the engine until SEQ is in a wait state with CMD empty, at most `n`. -/
def settle : Nat → State → State
  | 0, s => s
  | n + 1, s => if s.SEQ.isWait && s.CMD.isEmpty then s else settle n (applyEvent .engine s)

/-- The host receives up to `n` responses (R32). -/
def receive : Nat → Session → Session
  | 0, p => p
  | n + 1, p =>
    match hostSees p.engine with
    | some r => receive n { engine := hostTake p.engine, received := p.received ++ [r] }
    | none => p

/-- The host receives every response there is. -/
def receiveAll (p : Session) : Session := receive p.engine.RSP.length p

/-- `n` rounds in which the engine runs and the host receives what it answers. With RSP empty a round answers at least one word,
since none takes more than `commandSteps`. -/
def finish : Nat → Session → Session
  | 0, p => p
  | n + 1, p => finish n (receiveAll { p with engine := settle commandSteps p.engine })

/-- Every word sent before is answered and its answer received: a round for each word in CMD and one for a command that runs.
Then the engine waits, and CMD and RSP are empty. -/
def quiesce (p : Session) : Session := finish (p.engine.CMD.length + 1) (receiveAll p)

/-- The host lets every earlier word be answered, sends a word, and receives its answer. RSP is empty when the word is sent, so
the engine answers at any CHANNEL_DEPTH. -/
def sendAndRun (w : Word) (p : Session) : Session :=
  let q := quiesce p
  finish 1 { q with engine := hostSend w q.engine }

/-- The response to the word that turned the session `p` into `q`: what was received after every earlier word was answered, so
never the answer to an older word. `none` if nothing was. -/
def answerOf (p q : Session) : Option Word := (q.received.drop (quiesce p).received.length).head?

/-- Bytes to KEY addresses from `a` upward, the other addresses kept; the window has 256 addresses (R58; log entry 15). -/
def placeKeyFrom : Nat → List Byte → State → State
  | _, [], s => s
  | a, b :: bs, s => if a < 256 then placeKeyFrom (a + 1) bs (hostPlaceKey (BitVec.ofNat 8 a) b s) else s

/-- Is a response word an ERR (KIND 1111, R87)? -/
def isErrWord (w : Word) : Bool := decide (opcField w = 0b1111#4)

/-- The host sends words one at a time. -/
def sendAll : List Word → Session → Session
  | [], p => p
  | w :: ws, p => sendAll ws (sendAndRun w p)

/-- The host's `.key` (R91): it lets every earlier word be answered and receives the answers, and only then places the bytes. So no
START is unanswered when it changes the key (R54), and it places every byte. The waiting is the model's choice: R91 and R213 do not say whether a host waits (log entry 17). -/
def placeAndWait (bs : List Byte) (p : Session) : Session :=
  let q := quiesce p
  { q with engine := placeKeyFrom 0 bs q.engine }

/-- What one assembled item does. After an ERR to the START of a TRANSFORM "the remaining commands are not sent" (R92). The model's
choices, where the spec is silent (log entry 17): a `.key` or a TRANSFORM played while earlier words are unanswered waits for their
answers before its bytes are placed or its START is sent, and while no response to that START has come the rest is not sent. -/
def play : AsmItem → Session → Session
  | .placeKey bs, p => placeAndWait bs p
  | .send w, p => sendAndRun w p
  | .call w later, p =>
    let q := sendAndRun w p
    match answerOf p q with
    | some r => if isErrWord r then q else sendAll later q
    | none => q

/-- A whole assembled program. -/
def playAll : List AsmItem → Session → Session
  | [], p => p
  | i :: is, p => playAll is (play i p)

end Sys2Proof.Machine
end

