-- ==== Sys2Proof/Machine/Reference.lean ====
section
/-! DEFINITION. The contract of the source, `transform(key, input) -> output`, as 40_engine_commands.md R115 writes it out: a
function of byte sequences, with no engine state, channel or sequencer. -/

namespace Sys2Proof.Machine

/-- The key byte of loop iteration `i`: `key[i mod L]` (R115). The default is never taken: `i mod L` is below L. -/
def cyclicKey (key : List Byte) (i : Nat) : Byte := key.getD (i % key.length) 0

/-- Phase 2 step 2 from permutation `S` and indices `i`, `j` (R115 a to e): one output byte per input byte. -/
def combineBytes : Slots → Byte → Byte → List Byte → List Byte
  | _, _, _, [] => []
  | S, i, j, x :: xs =>
    let i' := i + 1
    let j' := prgaIndex S i' j
    let S' := swap S i' j'
    (x ^^^ keystreamByte S' i' j') :: combineBytes S' i' j' xs

/-- `transform` (R115); `none` is InvalidKeyError. -/
def transform (key input : List Byte) : Option (List Byte) :=
  if key.length = 0 then none else some (combineBytes (ksa (cyclicKey key)) 0 0 input)

/-- The first `n` keystream bytes of a key: the output for `n` zero bytes (R113, "din = 0x00 makes the response carry the
keystream byte itself"). -/
def keystream (key : List Byte) (n : Nat) : List Byte :=
  combineBytes (ksa (cyclicKey key)) 0 0 (List.replicate n 0)

end Sys2Proof.Machine
end

