-- ==== Sys2Proof/Safety.lean ====
section
/-! DEFINITION. The terms that claims about runs use: the permutation invariant (10_state.md R21), the invariant of the whole
machine, the launch states, and agreement of two states on everything a later response can depend on
(70_reset_and_hazards.md R214). -/

namespace Sys2Proof.Machine

/-- "every value occurs in exactly one slot" (R21). -/
def IsPerm (S : Slots) : Prop := ∀ v : Byte, ∃ a : Byte, slot S a = v ∧ ∀ b : Byte, slot S b = v → b = a

/-- SEQ codes at whose boundary SINIT has run and the discard has not (R21). -/
def SeqCode.holdsPerm : SeqCode → Bool
  | .kbeg | .kstep | .prst | .ready | .pstep | .xorb | .endc => true
  | .idle | .chk | .init => false

/-- What CMDR holds while a command runs (R29): a START from CHK on, of nonzero length from INIT on (R131); a DATA in PSTEP
and XORB; END in ENDC. -/
def cmdrMatches (s : State) : Prop :=
  match s.SEQ with
  | .chk => ∃ k, s.CMDR = startWord k
  | .init | .kbeg | .kstep | .prst => ∃ k, k ≠ 0 ∧ s.CMDR = startWord k
  | .pstep | .xorb => ∃ d, s.CMDR = dataWord d
  | .endc => s.CMDR = endWord
  | .idle | .ready => True

/-- The channel holds no more words than CHANNEL_DEPTH (R31, R32). -/
def withinDepth (depth : Depth) (ch : List Word) : Prop := ∀ d, depth.capacity = some d → ch.length ≤ d

/-- The command that runs and is not yet answered: CMDR outside the wait states (R29, R111). -/
def inFlight (s : State) : List Word := if s.SEQ.isWait then [] else [s.CMDR]

/-- The invariant of the machine: from every state that meets it, a step or a move of the host gives one that does. -/
structure EngineInv (s : State) : Prop where
  /-- The KEY space is in canonical form. -/
  keyWf : Memory.wf s.KEY = true
  /-- Only the words of R87 are in RSP. -/
  rspLegal : ∀ w ∈ s.RSP, isResponseWord w = true
  /-- Neither channel is over its depth. -/
  cmdFits : withinDepth s.params.depth s.CMD
  rspFits : withinDepth s.params.depth s.RSP
  /-- S is a permutation from SINIT to the discard (R21). -/
  perm : s.SEQ.holdsPerm = true → IsPerm s.S
  /-- CMDR holds the command that runs (R29). -/
  cmdr : cmdrMatches s
  /-- The sweep leaves I wrapped to 0 (R134, R24). -/
  swept : s.SEQ = .prst → s.I = 0
  /-- One response for each word, in order (R32, R217): of the words whose response the host has not received, the oldest are
  answered in RSP, one each; then comes the command that runs; the rest are in CMD. The record `sent` is the model's own, and that a
  reset empties it is its choice (log entry 7). -/
  answered : s.RSP.length ≤ s.sent.length
  paired : s.sent.drop s.RSP.length = inFlight s ++ s.CMD

/-- A launch state: reset, with the OPEN parameters and the level of description of one instance (R7, R14, R212). -/
def launch (p : Params) (l : Level) : State := { State.reset with params := p, level := l }

/-- States that runs of the engine and its host can reach. -/
def Reachable (s : State) : Prop := ∃ (p : Params) (l : Level) (es : List Event), s = runEvents es (launch p l)

/-- The number of micro-operations from taking the word `w` in the wait state `q` to its response (R222). -/
def commandCount (q : SeqCode) (w : Word) : Nat :=
  match q, decodeCommand w with
  | .idle, .ok (.start k) => if k = 0 then 2 else 261
  | .ready, .ok (.data _) => 3
  | .ready, .ok .endCall => 2
  | _, _ => 1

/-- Is S read before it is next written, from this SEQ on (R214)? -/
def SeqCode.readsS : SeqCode → Bool
  | .kbeg | .kstep | .prst | .ready | .pstep | .xorb => true
  | .idle | .chk | .init | .endc => false

/-- Are I and J read before they are next written, from this SEQ on (R214)? -/
def SeqCode.readsIJ : SeqCode → Bool
  | .kstep | .ready | .pstep | .xorb => true
  | .idle | .chk | .init | .kbeg | .prst | .endc => false

/-- Is CMDR read before it is next written, from this SEQ on (R214)? -/
def SeqCode.readsCmdr : SeqCode → Bool
  | .chk | .init | .kbeg | .kstep | .pstep | .xorb => true
  | .idle | .prst | .ready | .endc => false

/-- Two states that differ at most in registers that are written before they are next read, and in the count of draws. -/
structure Agree (s t : State) : Prop where
  seq : s.SEQ = t.SEQ
  cmd : s.CMD = t.CMD
  rsp : s.RSP = t.RSP
  key : s.KEY = t.KEY
  params : s.params = t.params
  level : s.level = t.level
  sent : s.sent = t.sent
  slots : s.SEQ.readsS = true → s.S = t.S
  indices : s.SEQ.readsIJ = true → s.I = t.I ∧ s.J = t.J
  cmdr : s.SEQ.readsCmdr = true → s.CMDR = t.CMDR
  latch : s.SEQ = .xorb → s.Z = t.Z

end Sys2Proof.Machine
end

