-- ==== Sys2Proof/Certificates/Slice0/Obligations.lean ====
section
/-! DEFINITION. The statements for the provers. Each docstring names the rules of spec/ it formalises. "RSP has room" is
`rspFull s = false` (10_state.md R32). In a state where SEQ waits and CMD is not empty, `w` is the oldest word. Free values stand
under an existential: no statement says which value one is. -/

open Sys2Proof Sys2Proof.Machine

/-! ### Encodings -/

/-- R93, R94: decoding an encoded instruction gives it back, every operand at every value. -/
def Obligations.DecodeOfEncodeIsIdentity : Prop :=
  ∀ i : Instr, decode (encode i) = .ok i

/-- R93, R94: no two codes stand for one instruction, and no code loses a bit. -/
def Obligations.EncodeOfDecodeIsIdentity : Prop :=
  ∀ (c : Code) (i : Instr), decode c = .ok i → encode i = c

/-- R93, the complete map: a word is START, DATA or END exactly when it has the row's match under the row's mask, with the
row's field as operand; every other word is illegal; and SEQ's ten codes select the nine micro-operations. -/
def Obligations.OpcodeMapRows : Prop :=
  (∀ (w : Word) (k : Klen), decodeCommand w = .ok (.start k) ↔
    w &&& 0xF000#16 = 0x1000#16 ∧ k.toNat = w.toNat % 4096) ∧
  (∀ (w : Word) (d : Byte), decodeCommand w = .ok (.data d) ↔
    w &&& 0xFF00#16 = 0x2000#16 ∧ d.toNat = w.toNat % 256) ∧
  (∀ w : Word, decodeCommand w = .ok .endCall ↔ w &&& 0xFFFF#16 = 0x3000#16) ∧
  (∀ w : Word, (∃ r, decodeCommand w = .error r) ↔
    w &&& 0xF000#16 ≠ 0x1000#16 ∧ w &&& 0xFF00#16 ≠ 0x2000#16 ∧ w &&& 0xFFFF#16 ≠ 0x3000#16) ∧
  (∀ (c : SeqBits) (i : Instr), decodeUop c = .ok i ↔
    (c.toNat, i) ∈ [(0, .dispatchIdle), (1, .chkkey), (2, .sinit), (3, .kbeg), (4, .kstep), (5, .prst),
      (6, .dispatchReady), (7, .pstep), (8, .xorb), (9, Instr.endc)])

/-- R84 (a), (b), (c): the three kinds of illegal word, and no other. -/
def Obligations.IllegalWordKinds : Prop :=
  ∀ w : Word,
    (decodeCommand w = .error (.reservedOpcode (BitVec.ofNat 4 (w.toNat / 4096))) ↔
      w.toNat / 4096 = 0 ∨ 4 ≤ w.toNat / 4096) ∧
    (decodeCommand w = .error .dataFieldNotZero ↔ w.toNat / 4096 = 2 ∧ w.toNat / 256 % 16 ≠ 0) ∧
    (decodeCommand w = .error .endFieldNotZero ↔ w.toNat / 4096 = 3 ∧ w.toNat % 4096 ≠ 0)

/-- Words E1 to E15 of 95_test_vectors.md B1, written out from R81 to R84. -/
def Obligations.ListedWordsDecode : Prop :=
  decodeCommand 0x1003 = .ok (.start 3) ∧ decodeCommand 0x1000 = .ok (.start 0) ∧
  decodeCommand 0x1FFF = .ok (.start 4095) ∧ decodeCommand 0x2050 = .ok (.data 0x50) ∧
  decodeCommand 0x20FF = .ok (.data 0xFF) ∧ decodeCommand 0x3000 = .ok .endCall ∧
  decodeCommand 0x2100 = .error .dataFieldNotZero ∧ decodeCommand 0x3001 = .error .endFieldNotZero ∧
  decodeCommand 0xF001 = .error (.reservedOpcode 0xF) ∧
  decodeUop 0b0100 = .ok .kstep ∧ decodeUop 0b1000 = .ok .xorb

/-! ### One step -/

/-- R14, R88, R111: a step runs the instruction that its bits decode to: SEQ's micro-operation at micro level and while a
command runs; at command level, in a wait state, the command of the oldest word. A table word put in place (log entry 9) is what
the next step runs. -/
def Obligations.StepRunsDecodedInstruction : Prop :=
  (∀ (s : State) (i : Instr), s.level = .micro ∨ s.SEQ.isWait = false →
    decodeUop s.SEQ.bits = .ok i → step s = exec i s) ∧
  (∀ (s : State) (w : Word) (rest : List Word) (i : Instr), s.level = .command → s.SEQ.isWait = true →
    s.CMD = w :: rest → decodeCommand w = .ok i → step s = exec i s) ∧
  (∀ (s : State) (nbits w : Nat) (i : Instr), decodeTableWord nbits w = some i →
    step (s.withFetchWord nbits w) = exec i (s.withFetchWord nbits w))

/-- R196, R186: no instruction and no step stops the machine. -/
def Obligations.NothingStopsTheMachine : Prop :=
  (∀ (i : Instr) (s : State), ∃ t, exec i s = .next t) ∧ ∀ s : State, ∃ t, step s = .next t

/-- R31, R194: with CMD empty in IDLE or READY the step changes nothing, at either level. -/
def Obligations.EmptyCommandChannelWaits : Prop :=
  ∀ s : State, s.SEQ.isWait = true → s.CMD = [] → step s = .next s

/-! ### DISPATCH -/

/-- R110: DISPATCH in each of its two codes. With CMD empty it waits; an illegal word is answered F003; a command SEQ does not
admit F002; an admitted one sets SEQ. CMDR holds the word taken. Everything else is unchanged. A refusal waits for room. -/
def Obligations.DispatchEffect : Prop :=
  ∀ s : State,
    (s.CMD = [] → (s.SEQ = .idle → exec .dispatchIdle s = .next s) ∧ (s.SEQ = .ready → exec .dispatchReady s = .next s)) ∧
    ∀ (w : Word) (rest : List Word), s.CMD = w :: rest →
      (s.SEQ = .idle →
        (∀ k, decodeCommand w = .ok (.start k) →
          exec .dispatchIdle s = .next { s with CMD := rest, CMDR := w, SEQ := .chk }) ∧
        ((∃ d, decodeCommand w = .ok (.data d)) ∨ decodeCommand w = .ok .endCall → rspFull s = false →
          exec .dispatchIdle s = .next { s with CMD := rest, CMDR := w, RSP := s.RSP ++ [0xF002] }) ∧
        ((∃ r, decodeCommand w = .error r) → rspFull s = false →
          exec .dispatchIdle s = .next { s with CMD := rest, CMDR := w, RSP := s.RSP ++ [0xF003] })) ∧
      (s.SEQ = .ready →
        (∀ d, decodeCommand w = .ok (.data d) →
          exec .dispatchReady s = .next { s with CMD := rest, CMDR := w, SEQ := .pstep }) ∧
        (decodeCommand w = .ok .endCall →
          exec .dispatchReady s = .next { s with CMD := rest, CMDR := w, SEQ := .endc }) ∧
        (∀ k, decodeCommand w = .ok (.start k) → rspFull s = false →
          exec .dispatchReady s = .next { s with CMD := rest, CMDR := w, RSP := s.RSP ++ [0xF002] }) ∧
        ((∃ r, decodeCommand w = .error r) → rspFull s = false →
          exec .dispatchReady s = .next { s with CMD := rest, CMDR := w, RSP := s.RSP ++ [0xF003] }))

/-! ### The KSA unit -/

/-- R131: CHKKEY passes a nonzero length to INIT with no response, and answers a zero length with F001 in IDLE. -/
def Obligations.ChkkeyEffect : Prop :=
  ∀ s : State,
    (s.CMDR &&& 0x0FFF#16 ≠ 0 → exec .chkkey s = .next { s with SEQ := .init }) ∧
    (s.CMDR &&& 0x0FFF#16 = 0 → rspFull s = false →
      exec .chkkey s = .next { s with RSP := s.RSP ++ [0xF001], SEQ := .idle })

/-- R132: SINIT writes every slot with its own index, whatever S held, and S is then a permutation. -/
def Obligations.SinitEffect : Prop :=
  ∀ s : State, ∃ T : Slots, (∀ m : Byte, slot T m = m) ∧ IsPerm T ∧
    exec .sinit s = .next { s with S := T, SEQ := .kbeg }

/-- R133: KBEG sets I and J to 0. -/
def Obligations.KbegEffect : Prop :=
  ∀ s : State, exec .kbeg s = .next { s with I := 0, J := 0, SEQ := .kstep }

/-- R134: KSTEP. The key address is I mod L for L >= 1; for L = 0, where the remainder is undefined (U1), it is some address. J
is the old J plus the slot at I before the swap plus the key byte; the slots at I and at the new J are exchanged; I steps, and
wraps out of 255 into PRST. -/
def Obligations.KstepEffect : Prop :=
  ∀ s : State, ∃ a : Byte,
    ((s.CMDR &&& 0x0FFF#16).toNat ≠ 0 → a.toNat = s.I.toNat % (s.CMDR &&& 0x0FFF#16).toNat) ∧
    ∃ (j : Byte) (T : Slots),
      j.toNat = (s.J.toNat + (slot s.S s.I).toNat + (keyRead s a).toNat) % 256 ∧
      (∀ x : Byte, slot T x = if x = s.I then slot s.S j else if x = j then slot s.S s.I else slot s.S x) ∧
      exec .kstep s = .next { s with
        J := j, S := T
        I := if s.I = 255 then 0 else s.I + 1
        SEQ := if s.I = 255 then .prst else .kstep }

/-- R134, R53: the sweep. From I = 0 in KSTEP, the engine runs KSTEP with I = 0, 1, ..., 255 in that order, then SEQ is PRST and I
has wrapped to 0; no word is taken and no response emitted on the way. -/
def Obligations.SweepRunsKstep256Times : Prop :=
  ∀ s : State, s.SEQ = .kstep → s.I = 0 →
    (∀ n < 256, (runSteps n s).SEQ = .kstep ∧ (runSteps n s).I.toNat = n ∧
      (runSteps n s).CMD = s.CMD ∧ (runSteps n s).RSP = s.RSP) ∧
    (runSteps 256 s).SEQ = .prst ∧ (runSteps 256 s).I = 0 ∧
    (runSteps 256 s).CMD = s.CMD ∧ (runSteps 256 s).RSP = s.RSP

/-- R53: the key address of an iteration is the remainder, below L and below 256. -/
def Obligations.KeyAddressInsideKey : Prop :=
  ∀ (L : Nat) (i : Byte), L ≠ 0 → (keyAddr L i).toNat = i.toNat % L ∧ (keyAddr L i).toNat < min L 256

/-! ### The PRGA generator and the combiner -/

/-- R151: PRST clears I and J, emits the ACK of START and opens the call. -/
def Obligations.PrstEffect : Prop :=
  ∀ s : State, rspFull s = false →
    exec .prst s = .next { s with I := 0, J := 0, RSP := s.RSP ++ [0x1000], SEQ := .ready }

/-- R152: PSTEP, steps a to d in order. It reads no field of CMDR. -/
def Obligations.PstepEffect : Prop :=
  ∀ s : State, ∃ (i j : Byte) (T : Slots),
    i.toNat = (s.I.toNat + 1) % 256 ∧
    j.toNat = (s.J.toNat + (slot s.S i).toNat) % 256 ∧
    (∀ x : Byte, slot T x = if x = i then slot s.S j else if x = j then slot s.S i else slot s.S x) ∧
    exec .pstep s = .next { s with
      I := i, J := j, S := T
      Z := slot T (BitVec.ofNat 8 (((slot T i).toNat + (slot T j).toNat) % 256)), SEQ := .xorb }

/-- R170: XORB answers BYTE with DIN xor Z and goes back to READY. -/
def Obligations.XorbEffect : Prop :=
  ∀ s : State, rspFull s = false →
    exec .xorb s = .next { s with
      RSP := s.RSP ++ [0x2000#16 + (s.CMDR &&& 0x00FF#16 ^^^ s.Z.setWidth 16)], SEQ := .ready }

/-- R171: ENDC answers ACK and goes back to IDLE; S, I, J and Z hold some values, and CMDR keeps the END word. -/
def Obligations.EndcEffect : Prop :=
  ∀ s : State, rspFull s = false → ∃ (T : Slots) (i j z : Byte) (n : Nat),
    exec .endc s = .next { s with
      S := T, I := i, J := j, Z := z, draw := n, RSP := s.RSP ++ [0x1000], SEQ := .idle }

/-- R32: an instruction that would emit with RSP full waits and changes no value. That a command waits before its word is taken
is the model's choice (log entry 5). -/
def Obligations.FullResponseChannelWaits : Prop :=
  ∀ s : State, rspFull s = true →
    exec .prst s = .next s ∧ exec .xorb s = .next s ∧ exec .endc s = .next s ∧
    (s.CMDR &&& 0x0FFF#16 = 0 → exec .chkkey s = .next s) ∧
    (∀ w rest, s.CMD = w :: rest →
      ((∀ k, decodeCommand w ≠ .ok (.start k)) → exec .dispatchIdle s = .next s) ∧
      ((∀ d, decodeCommand w ≠ .ok (.data d)) → decodeCommand w ≠ .ok .endCall →
        exec .dispatchReady s = .next s)) ∧
    (∀ k, exec (.start k) s = .next s) ∧ (∀ d, exec (.data d) s = .next s) ∧ exec .endCall s = .next s ∧
    ∀ t, step s = .next t → t.RSP = s.RSP

/-! ### The commands -/

/-- R112: START. In IDLE with klen = 0 it is answered F001 and nothing but CMD, CMDR and RSP changes. In IDLE with klen >= 1, S is
the end of the 256 iterations from the identity: `P n` is the permutation and `j n` the index before iteration n. In READY it is
answered F002. Where its word is not
the oldest of CMD, a case the spec does not have, what is said is the model's choice (log entry 14). -/
def Obligations.StartEffect : Prop :=
  ∀ (k : Klen) (s : State), rspFull s = false →
    (s.SEQ = .idle → k = 0 →
      exec (.start k) s = .next { s with CMD := s.CMD.tail, CMDR := 0x1000, RSP := s.RSP ++ [0xF001] }) ∧
    (s.SEQ = .idle → k ≠ 0 → ∃ (P : Nat → Byte → Byte) (j : Nat → Byte) (a : Nat → Byte) (T : Slots),
      (∀ m, P 0 m = m) ∧ j 0 = 0 ∧
      (∀ i < 256,
        (a i).toNat = i % k.toNat ∧
        j (i + 1) = j i + P i (BitVec.ofNat 8 i) + keyRead s (a i) ∧
        ∀ x, P (i + 1) x =
          if x = BitVec.ofNat 8 i then P i (j (i + 1))
          else if x = j (i + 1) then P i (BitVec.ofNat 8 i) else P i x) ∧
      (∀ x, slot T x = P 256 x) ∧
      exec (.start k) s = .next { s with
        CMD := s.CMD.tail, CMDR := 0x1000#16 + k.setWidth 16, S := T, I := 0, J := 0, SEQ := .ready
        RSP := s.RSP ++ [0x1000] }) ∧
    (s.SEQ = .ready →
      exec (.start k) s = .next { s with
        CMD := s.CMD.tail, CMDR := 0x1000#16 + k.setWidth 16, RSP := s.RSP ++ [0xF002] })

/-- R113: DATA. In READY one pass of steps a to e; in IDLE it is answered F002 and only CMD, CMDR and RSP change. Where its word is not
the oldest of CMD, a case the spec does not have, what is said is the model's choice (log entry 14). -/
def Obligations.DataEffect : Prop :=
  ∀ (d : Byte) (s : State), rspFull s = false →
    (s.SEQ = .ready → ∃ (i j z : Byte) (T : Slots),
      i = s.I + 1 ∧ j = s.J + slot s.S i ∧
      (∀ x : Byte, slot T x = if x = i then slot s.S j else if x = j then slot s.S i else slot s.S x) ∧
      z = slot T (slot T i + slot T j) ∧
      exec (.data d) s = .next { s with
        CMD := s.CMD.tail, CMDR := 0x2000#16 + d.setWidth 16, I := i, J := j, S := T, Z := z
        RSP := s.RSP ++ [0x2000#16 + (d ^^^ z).setWidth 16] }) ∧
    (s.SEQ = .idle →
      exec (.data d) s = .next { s with
        CMD := s.CMD.tail, CMDR := 0x2000#16 + d.setWidth 16, RSP := s.RSP ++ [0xF002] })

/-- R114: END. In READY the discard, ACK and IDLE; in IDLE it is answered F002 and only CMD, CMDR and RSP change. Where its word is not
the oldest of CMD, a case the spec does not have, what is said is the model's choice (log entry 14). -/
def Obligations.EndEffect : Prop :=
  ∀ s : State, rspFull s = false →
    (s.SEQ = .ready → ∃ (T : Slots) (i j z : Byte) (n : Nat),
      exec .endCall s = .next { s with
        CMD := s.CMD.tail, CMDR := 0x3000, S := T, I := i, J := j, Z := z, draw := n
        RSP := s.RSP ++ [0x1000], SEQ := .idle }) ∧
    (s.SEQ = .idle →
      exec .endCall s = .next { s with CMD := s.CMD.tail, CMDR := 0x3000, RSP := s.RSP ++ [0xF002] })

/-- R31, R111: while a command runs no other is taken: outside IDLE and READY no step removes a word from CMD. The model's
choice (log entry 14): an instruction that SEQ does not let run, a command outside a wait state or DISPATCH with the code of
another SEQ, changes nothing. -/
def Obligations.NoCommandTakenWhileOneRuns : Prop :=
  ∀ s : State,
    (s.SEQ.isWait = false →
      (∀ t, step s = .next t → t.CMD = s.CMD) ∧
      (∀ k, exec (.start k) s = .next s) ∧ (∀ d, exec (.data d) s = .next s) ∧ exec .endCall s = .next s) ∧
    (s.SEQ ≠ .idle → exec .dispatchIdle s = .next s) ∧ (s.SEQ ≠ .ready → exec .dispatchReady s = .next s)

/-- R32, R87: at command level every word taken in a wait state is answered with exactly one response word, the last of RSP, and
SEQ waits again. -/
def Obligations.EveryCommandAnsweredOnce : Prop :=
  ∀ (s : State) (w : Word) (rest : List Word), s.level = .command → s.SEQ.isWait = true → s.CMD = w :: rest →
    rspFull s = false →
    ∃ (t : State) (r : Word), step s = .next t ∧ t.CMD = rest ∧ t.CMDR = w ∧ t.RSP = s.RSP ++ [r] ∧
      t.SEQ.isWait = true

/-- R87: a step emits nothing or one word, and that word is ACK, a BYTE or one of the three ERR words. -/
def Obligations.OnlyListedResponsesEmitted : Prop :=
  ∀ s t : State, step s = .next t →
    t.RSP = s.RSP ∨ ∃ r : Word, t.RSP = s.RSP ++ [r] ∧
      (r = 0x1000 ∨ (∃ v : Byte, r = 0x2000#16 + v.setWidth 16) ∨ r = 0xF001 ∨ r = 0xF002 ∨ r = 0xF003)

/-! ### Errors -/

/-- R182, at either level: in IDLE a DATA or an END, in READY a START, is taken, answered F002, and changes nothing but CMDR; a
command SEQ admits is not answered F002. -/
def Obligations.ProtocolAdmissionTable : Prop :=
  ∀ (s : State) (w : Word) (rest : List Word), s.CMD = w :: rest → rspFull s = false →
    (s.SEQ = .idle → (∃ d, decodeCommand w = .ok (.data d)) ∨ decodeCommand w = .ok .endCall →
      step s = .next { s with CMD := rest, CMDR := w, RSP := s.RSP ++ [0xF002] }) ∧
    (s.SEQ = .ready → (∃ k, decodeCommand w = .ok (.start k)) →
      step s = .next { s with CMD := rest, CMDR := w, RSP := s.RSP ++ [0xF002] }) ∧
    (s.SEQ = .idle → (∃ k, decodeCommand w = .ok (.start k)) →
      ∃ t, step s = .next t ∧ t.CMD = rest ∧ t.CMDR = w ∧ t.RSP ≠ s.RSP ++ [0xF002]) ∧
    (s.SEQ = .ready → (∃ d, decodeCommand w = .ok (.data d)) ∨ decodeCommand w = .ok .endCall →
      ∃ t, step s = .next t ∧ t.CMD = rest ∧ t.CMDR = w ∧ t.RSP ≠ s.RSP ++ [0xF002])

/-- R183, at either level: an illegal word is taken, answered F003, and changes nothing but CMDR, in IDLE and in READY alike. -/
def Obligations.IllegalCommandRefused : Prop :=
  ∀ (s : State) (w : Word) (rest : List Word), s.SEQ.isWait = true → s.CMD = w :: rest → rspFull s = false →
    (∃ r, decodeCommand w = .error r) →
    step s = .next { s with CMD := rest, CMDR := w, RSP := s.RSP ++ [0xF003] }

/-- R185: the one error a command reports, at command level: F003 for an illegal word; else F002 for a command SEQ does not
admit, START 0 among them; else F001 for START 0; else none. -/
def Obligations.ErrorPriority : Prop :=
  ∀ (s : State) (w : Word) (rest : List Word), s.level = .command → s.SEQ.isWait = true → s.CMD = w :: rest →
    rspFull s = false → ∃ (t : State) (r : Word), step s = .next t ∧ t.RSP = s.RSP ++ [r] ∧
      (r = 0xF003 ↔ ∃ e, decodeCommand w = .error e) ∧
      (r = 0xF002 ↔ (s.SEQ = .ready ∧ ∃ k, decodeCommand w = .ok (.start k)) ∨
        (s.SEQ = .idle ∧ ((∃ d, decodeCommand w = .ok (.data d)) ∨ decodeCommand w = .ok .endCall))) ∧
      (r = 0xF001 ↔ s.SEQ = .idle ∧ decodeCommand w = .ok (.start 0))

/-- R184: a step that answers ERR leaves S, I, J, Z and the KEY space as they were, and SEQ in the wait state the command was
taken in (IDLE after CHKKEY). -/
def Obligations.ErrorsArePrecise : Prop :=
  ∀ (s t : State) (e : ErrCode), step s = .next t → t.RSP = s.RSP ++ [0xF000#16 + e.code.setWidth 16] →
    t.S = s.S ∧ t.I = s.I ∧ t.J = s.J ∧ t.Z = s.Z ∧ t.KEY = s.KEY ∧ t.draw = s.draw ∧
    ((s.SEQ.isWait = true ∧ t.SEQ = s.SEQ) ∨ (s.SEQ = .chk ∧ t.SEQ = .idle ∧ e = .invalidKey))

/-- R181: a START 0 is answered F001 and opens no call, so a DATA and an END sent after it are answered F002 each; S, I, J and Z
are as before the START. -/
def Obligations.FailedStartOpensNoCall : Prop :=
  ∀ (s : State) (d : Byte), s.level = .command → s.SEQ = .idle →
    (∀ n, s.params.depth.capacity = some n → s.RSP.length + 3 ≤ n) → s.CMD = [startWord 0, dataWord d, endWord] →
    (runSteps 3 s).RSP = s.RSP ++ [0xF001, 0xF002, 0xF002] ∧ (runSteps 3 s).SEQ = .idle ∧
    (runSteps 3 s).S = s.S ∧ (runSteps 3 s).I = s.I ∧ (runSteps 3 s).J = s.J ∧ (runSteps 3 s).Z = s.Z

/-- R186: a refused word in READY does not disturb the open call: the DATA after it gives the same byte, S, I, J and Z as it gives
without the refused word. -/
def Obligations.RefusedWordLeavesCallIntact : Prop :=
  ∀ (s t u v : State) (w : Word) (d : Byte) (rest : List Word), s.SEQ = .ready →
    (∀ n, s.params.depth.capacity = some n → s.RSP.length + 2 ≤ n) → s.CMD = w :: dataWord d :: rest →
    ((∃ r, decodeCommand w = .error r) ∨ ∃ k, decodeCommand w = .ok (.start k)) →
    step s = .next t → exec (.data d) t = .next u → exec (.data d) { s with CMD := dataWord d :: rest } = .next v →
    u.S = v.S ∧ u.I = v.I ∧ u.J = v.J ∧ u.Z = v.Z ∧ u.SEQ = v.SEQ ∧ u.CMD = v.CMD ∧
    ∃ r e, v.RSP = s.RSP ++ [r] ∧ u.RSP = s.RSP ++ [e, r]

/-! ### Whole-machine rules -/

/-- R52, R30, R64: no instruction writes the KEY space, so every key byte reads as before; nor the parameters (R7), nor the
level of description (R14). -/
def Obligations.KeySpaceNeverWritten : Prop :=
  ∀ (i : Instr) (s t : State), exec i s = .next t →
    t.KEY = s.KEY ∧ (∀ a : Byte, keyRead t a = keyRead s a) ∧ t.params = s.params ∧ t.level = s.level

/-- R20, R23, R29, R31, R34: which instructions write which register. S: SINIT, KSTEP, PSTEP, ENDC. I and J: KBEG, KSTEP, PRST, PSTEP,
ENDC. CMDR and CMD: DISPATCH. Z: PSTEP, ENDC. A command writes what its micro-operations write. -/
def Obligations.OnlyListedWritersOfRegisters : Prop :=
  ∀ (i : Instr) (s t : State), exec i s = .next t →
    (t.S ≠ s.S → i = .sinit ∨ i = .kstep ∨ i = .pstep ∨ i = .endc ∨ i = .endCall ∨
      (∃ k, i = .start k) ∨ ∃ d, i = .data d) ∧
    (t.I ≠ s.I ∨ t.J ≠ s.J → i = .kbeg ∨ i = .kstep ∨ i = .prst ∨ i = .pstep ∨ i = .endc ∨ i = .endCall ∨
      (∃ k, i = .start k) ∨ ∃ d, i = .data d) ∧
    (t.CMDR ≠ s.CMDR ∨ t.CMD ≠ s.CMD → i = .dispatchIdle ∨ i = .dispatchReady ∨ i = .endCall ∨
      (∃ k, i = .start k) ∨ ∃ d, i = .data d) ∧
    (t.Z ≠ s.Z → i = .pstep ∨ i = .endc ∨ i = .endCall ∨ ∃ d, i = .data d)

/-- R25, R26: where SEQ goes from each code at micro level. The only loop of one micro-operation is KSTEP's, besides waiting. -/
def Obligations.SequencerSuccessors : Prop :=
  ∀ s t : State, s.level = .micro → step s = .next t → t = s ∨
    match s.SEQ with
    | .idle => t.SEQ = .chk ∨ t.SEQ = .idle
    | .chk => t.SEQ = .init ∨ t.SEQ = .idle
    | .init => t.SEQ = .kbeg
    | .kbeg => t.SEQ = .kstep
    | .kstep => t.SEQ = .kstep ∨ t.SEQ = .prst
    | .prst => t.SEQ = .ready
    | .ready => t.SEQ = .pstep ∨ t.SEQ = .endc ∨ t.SEQ = .ready
    | .pstep => t.SEQ = .xorb
    | .xorb => t.SEQ = .ready
    | .endc => t.SEQ = .idle

/-- R218: the only ways out of READY are END and reset: at command level a step from READY is in READY unless the word taken is
END, and of the host's moves only reset leaves READY. -/
def Obligations.ReadyLeftOnlyByEndOrReset : Prop :=
  (∀ s t : State, s.level = .command → s.SEQ = .ready → step s = .next t →
    t.SEQ = .ready ∨ (t.SEQ = .idle ∧ s.CMD.head? = some 0x3000)) ∧
  ∀ (s : State) (m : HostMove), s.SEQ = .ready → (hostMove m s).SEQ = .ready ∨ m = .reset

/-- R210: reset from any state, and at power-on: SEQ is IDLE, both channels are empty, S, I, J, CMDR and Z hold some values, no
response is emitted, and the KEY space is untouched. That reset empties the host's record `sent`, and so frees its duty on the
key, is the model's choice (log entry 7). -/
def Obligations.ResetEffect : Prop :=
  (∀ s : State, ∃ (T : Slots) (i j z : Byte) (c : Word) (n : Nat),
    hostMove .reset s = { s with
      SEQ := .idle, CMD := [], RSP := [], sent := [], S := T, I := i, J := j, Z := z, CMDR := c, draw := n }) ∧
  State.reset.SEQ = .idle ∧ State.reset.CMD = [] ∧ State.reset.RSP = []

/-- The invariant holds in every launch state, `State.reset` among them. -/
def Obligations.InvariantAtLaunch : Prop :=
  EngineInv State.reset ∧ ∀ (p : Params) (l : Level), EngineInv (launch p l)

/-- Every step keeps the invariant, at either level, from every state that meets it (R21, R29, R87, R134 and the canonical form of
the KEY space). Its clauses on the field `sent` pair responses and words (R32, R217) in a record that is the model's own (log entry
7). -/
def Obligations.StepKeepsInvariant : Prop :=
  ∀ s t : State, EngineInv s → step s = .next t → EngineInv t

/-- Every move of the host, and reset, keeps the invariant. Its clauses on the field `sent` survive a reset because the model empties
that record there, its choice (log entry 7). -/
def Obligations.HostMovesKeepInvariant : Prop :=
  ∀ (m : HostMove) (s : State), EngineInv s → EngineInv (hostMove m s)

/-- R21: in every state a run can reach, from the end of SINIT until the discard, every value occurs in exactly one slot. -/
def Obligations.PermutationHeldInEveryRun : Prop :=
  ∀ s : State, Reachable s → s.SEQ ∉ [SeqCode.idle, .chk, .init] →
    ∀ v : Byte, ∃ a : Byte, slot s.S a = v ∧ ∀ b : Byte, slot s.S b = v → b = a

/-- R214: two engines in IDLE that differ only in S, I, J, CMDR, Z (and in the draws of free values) give the same responses, the same
SEQ and the same CMD after any events whatever. That they agree on `sent` is asked because the host's key move reads this record of
the model's own (log entry 7). -/
def Obligations.UnspecifiedValuesNeverReachAResponse : Prop :=
  ∀ s t : State, s.SEQ = .idle → t.SEQ = .idle → s.CMD = t.CMD → s.RSP = t.RSP → s.KEY = t.KEY →
    s.params = t.params → s.level = t.level → s.sent = t.sent → ∀ es : List Event,
      (runEvents es s).RSP = (runEvents es t).RSP ∧ (runEvents es s).SEQ = (runEvents es t).SEQ ∧
      (runEvents es s).CMD = (runEvents es t).CMD

/-- R214: agreement on everything that is read before it is next written is kept by every step. -/
def Obligations.StepKeepsAgreement : Prop :=
  ∀ s t s' t' : State, Agree s t → step s = .next s' → step t = .next t' → Agree s' t'

/-! ### The two levels agree -/

/-- R111: a word taken at command level gives the same registers, channels and response as the run of its micro-operations, whose
number R222 fixes. -/
def Obligations.CommandEqualsItsMicroOperations : Prop :=
  ∀ (s t : State) (w : Word) (rest : List Word), s.level = .micro → s.SEQ.isWait = true → s.CMD = w :: rest →
    rspFull s = false → step { s with level := .command } = .next t →
    runSteps (commandCount s.SEQ w) s = { t with level := .micro }

/-- R222: boundedness at micro level. A word taken is answered after exactly the number of micro-operations of R222: until then
SEQ is in no wait state and nothing is emitted. -/
def Obligations.CommandsFinishInCountedSteps : Prop :=
  ∀ (s : State) (w : Word) (rest : List Word), s.level = .micro → s.SEQ.isWait = true → s.CMD = w :: rest →
    rspFull s = false →
    (∀ n, 0 < n → n < commandCount s.SEQ w →
      (runSteps n s).SEQ.isWait = false ∧ (runSteps n s).RSP = s.RSP ∧ (runSteps n s).CMD = rest) ∧
    (runSteps (commandCount s.SEQ w) s).SEQ.isWait = true ∧
    (runSteps (commandCount s.SEQ w) s).CMD = rest ∧
    ∃ r, (runSteps (commandCount s.SEQ w) s).RSP = s.RSP ++ [r]

/-! ### The contract -/

/-- R115: the engine computes `transform`, at either level, for keys of any length: L is the length of the key or, for a key of 256
bytes or more, any value from 256 to 4095 (R213, R8). With the key in the KEY space, `START L; DATA ...; END` from IDLE gives
ACK, one BYTE per output byte, ACK; with an empty key ERR 1 and then ERR 2 for each later command. The number of steps is
that of R222. -/
def Obligations.EngineComputesTransform : Prop :=
  ∀ (s : State) (key input : List Byte) (k : Klen), s.SEQ = .idle →
    k.toNat = key.length ∨ (256 ≤ key.length ∧ 256 ≤ k.toNat) →
    (∀ a < min key.length 256, Memory.read s.KEY a = key[a]?) →
    (∀ d, s.params.depth.capacity = some d → s.RSP.length + input.length + 2 ≤ d) →
    s.CMD = startWord k :: (input.map dataWord ++ [endWord]) →
    (∀ out, transform key input = some out →
      ∃ n, n = (if s.level = .command then input.length + 2 else 261 + 3 * input.length + 2) ∧
        (runSteps n s).SEQ = .idle ∧ (runSteps n s).CMD = [] ∧
        (runSteps n s).RSP = s.RSP ++ [0x1000#16] ++ out.map (fun b => 0x2000#16 + b.setWidth 16) ++ [0x1000#16]) ∧
    (transform key input = none →
      ∃ n, n = (if s.level = .command then input.length + 2 else 2 + input.length + 1) ∧
        (runSteps n s).SEQ = .idle ∧ (runSteps n s).CMD = [] ∧
        (runSteps n s).RSP = s.RSP ++ [0xF001#16] ++ List.replicate (input.length + 1) 0xF002#16)

/-- R118: involution. -/
def Obligations.TransformIsInvolution : Prop :=
  ∀ key input : List Byte, key ≠ [] → (transform key input).bind (transform key) = some input

/-- R116: length preservation, of `transform` and in the engine: an accepted DATA emits exactly one BYTE response and nothing else
emits one (a BYTE step is XORB's, or an accepted DATA's at command level). -/
def Obligations.OneOutputBytePerInputByte : Prop :=
  (∀ key input out : List Byte, transform key input = some out → out.length = input.length) ∧
  (∀ (s : State) (d : Byte), s.SEQ = .ready → rspFull s = false →
    ∃ (t : State) (v : Byte), exec (.data d) s = .next t ∧ t.RSP = s.RSP ++ [0x2000#16 + v.setWidth 16]) ∧
  (∀ (i : Instr) (s t : State) (v : Byte), exec i s = .next t → t.RSP = s.RSP ++ [0x2000#16 + v.setWidth 16] →
    i = .xorb ∨ ∃ d, i = .data d ∧ s.SEQ = .ready)

/-- R120: from one open call, two DATA sequences of one length give outputs that differ at each position by exactly what the inputs
differ by, so only where the inputs do; and the same of `transform`. -/
def Obligations.OutputsDifferWhereInputsDo : Prop :=
  (∀ (s : State) (xs ys : List Byte), s.SEQ = .ready → s.level = .command →
    (∀ n, s.params.depth.capacity = some n → s.RSP.length + xs.length ≤ n) → xs.length = ys.length → ∃ os ps : List Byte, os.length = xs.length ∧ ps.length = xs.length ∧
      (runSteps xs.length { s with CMD := xs.map dataWord }).RSP =
        s.RSP ++ os.map (fun b => 0x2000#16 + b.setWidth 16) ∧
      (runSteps xs.length { s with CMD := ys.map dataWord }).RSP =
        s.RSP ++ ps.map (fun b => 0x2000#16 + b.setWidth 16) ∧
      os.zipWith (· ^^^ ·) ps = xs.zipWith (· ^^^ ·) ys) ∧
  (∀ key xs ys os ps : List Byte, xs.length = ys.length → transform key xs = some os → transform key ys = some ps →
    os.zipWith (· ^^^ ·) ps = xs.zipWith (· ^^^ ·) ys)

/-- R122: the keystream does not depend on the input. Two DATA from one state leave the same S, I, J and Z; PSTEP reads nothing of
CMDR; and the output of `transform` is the input xor the key's keystream. -/
def Obligations.KeystreamIndependentOfInput : Prop :=
  (∀ (s t u : State) (d e : Byte), exec (.data d) s = .next t → exec (.data e) s = .next u →
    t.S = u.S ∧ t.I = u.I ∧ t.J = u.J ∧ t.Z = u.Z) ∧
  (∀ (s t : State) (c : Word), exec .pstep s = .next t →
    exec .pstep { s with CMDR := c } = .next { t with CMDR := c }) ∧
  (∀ key input out : List Byte, transform key input = some out →
    out = input.zipWith (· ^^^ ·) (keystream key input.length))

/-- R8: a key of 256 bytes or more acts as its first 256 bytes, and any two lengths of 256 or more in START give the same. -/
def Obligations.LongKeyActsAsFirst256Bytes : Prop :=
  (∀ key input : List Byte, 256 ≤ key.length → transform key input = transform (key.take 256) input) ∧
  (∀ (k k' : Klen) (s t t' : State), 256 ≤ k.toNat → 256 ≤ k'.toNat →
    exec (.start k) s = .next t → exec (.start k') s = .next t' → t' = { t with CMDR := t'.CMDR })

/-- R136: the schedule depends only on L and on the key bytes at 0 to min(L, 256) - 1. -/
def Obligations.ScheduleUsesOnlyKeyBytesRead : Prop :=
  ∀ (k : Klen) (s t : State) (m : Memory),
    (∀ a : Byte, a.toNat < min k.toNat 256 → keyRead { s with KEY := m } a = keyRead s a) →
    exec (.start k) s = .next t → exec (.start k) { s with KEY := m } = .next { t with KEY := m }

/-- R136, R137: keys whose cyclic sequences agree on the 256 iterations give the same transform, so a key repeated, or a byte
repeated, is the same key. -/
def Obligations.RepeatedKeySameTransform : Prop :=
  ∀ (key input : List Byte) (n : Nat), key ≠ [] → n ≠ 0 →
    transform (List.replicate n key).flatten input = transform key input

/-! ### The host's side -/

/-- R54, D28 (the spec's premise; log entry 7): the key move changes nothing at an address that a START sent and not yet answered,
as far as the host has received, holds: 0 to min(L, 256) - 1; at any other it changes the byte at its address and no other, and the
KEY space stays in canonical form. -/
def Obligations.KeyMoveWithheldDuringStart : Prop :=
  ∀ (a b : Byte) (s : State),
    ((∃ k, startWord k ∈ s.sent ∧ a.toNat < min k.toNat 256) → hostMove (.placeKey a b) s = s) ∧
    ((∀ k, startWord k ∈ s.sent → min k.toNat 256 ≤ a.toNat) →
      (∀ x : Byte, keyRead (hostMove (.placeKey a b) s) x = if x = a then b else keyRead s x) ∧
      (Memory.wf s.KEY = true → Memory.wf (hostMove (.placeKey a b) s).KEY = true))

/-- R54, R216 (the premise, log entry 7), over every run: while a START runs, and while one is in CMD, no move of the host and no step
of the engine changes a byte of its key. -/
def Obligations.KeyFixedWhileStartRuns : Prop :=
  ∀ (s : State) (k : Klen), Reachable s →
    startWord k ∈ s.CMD ∨ (s.CMDR = startWord k ∧ s.SEQ ∈ [SeqCode.chk, .init, .kbeg, .kstep, .prst]) →
    ∀ (e : Event) (a : Byte), a.toNat < min k.toNat 256 → keyRead (applyEvent e s) a = keyRead s a

/-- R32, R217: in every run, of the words the host has sent and not received the response of, the oldest are answered in RSP, one
response each; then comes the command that runs, if one does; the rest wait in CMD, in the order sent. The record of those words is
the field `sent`, the model's own, and that a reset empties it, so that the words it loses drop out of the pairing, is the model's
choice (log entry 7). -/
def Obligations.ResponsesPairWithWordsInOrder : Prop :=
  ∀ s : State, Reachable s → ∃ answered : List Word, answered.length = s.RSP.length ∧
    s.sent = answered ++ (if s.SEQ = .idle ∨ s.SEQ = .ready then [] else [s.CMDR]) ++ s.CMD

/-- R90, R92: what the assembler makes of the commands START, DATA, END and WORD and of the pseudo-instructions TRANSFORM and DATAS
with operands in range, and that a START, DATA or WORD whose number is out of range is an error. The other lines and errors are in
`Obligations.AssemblerKeyDirectiveAndOtherLines`. -/
def Obligations.AssemblerMakesTheCommands : Prop :=
  (∀ (kl : Option Nat) (n : Nat), n ≤ 4095 → ∃ w, Asm.assembleLine kl (.start (.lit n)) = some [.send w] ∧
    w.toNat = 0x1000 + n ∧ decodeCommand w = .ok (.start (BitVec.ofNat 12 n))) ∧
  (∀ (kl : Option Nat) (n : Nat), n ≤ 255 → ∃ w, Asm.assembleLine kl (.data (.lit n)) = some [.send w] ∧
    w.toNat = 0x2000 + n ∧ decodeCommand w = .ok (.data (BitVec.ofNat 8 n))) ∧
  (∀ kl : Option Nat, ∃ w, Asm.assembleLine kl .endCall = some [.send w] ∧ w = 0x3000 ∧ decodeCommand w = .ok .endCall) ∧
  (∀ (kl : Option Nat) (n : Nat), n ≤ 65535 → ∃ w, Asm.assembleLine kl (.word (.lit n)) = some [.send w] ∧ w.toNat = n) ∧
  (∀ (kl : Option Nat) (n : Nat), (4095 < n → Asm.assembleLine kl (.start (.lit n)) = none) ∧
    (255 < n → Asm.assembleLine kl (.data (.lit n)) = none) ∧
    (65535 < n → Asm.assembleLine kl (.word (.lit n)) = none)) ∧
  (∀ (L : Nat) (bs : List Nat), L ≤ 4095 → (∀ b ∈ bs, b ≤ 255) →
    ∃ ws : List Word, ws.map BitVec.toNat = (0x1000 + L) :: (bs.map fun b => 0x2000 + b) ++ [0x3000] ∧
      (Asm.assembleLine (some L) (.transform bs)).map (fun is => is.flatMap Asm.itemWords) = some ws ∧
      (Asm.assembleLine (some L) (.datas bs)).map (fun is => is.flatMap Asm.itemWords) = some (ws.tail.dropLast))

/-- R193: OBS_PORT, where present, shows S[a], I and J in IDLE and READY; absent (the default) it shows nothing. At another time it
shows nothing, the model's choice (log entry 13). -/
def Obligations.ObservationPortShowsWaitStatesOnly : Prop :=
  (∀ (a : Byte) (s : State), s.params.obsPort = true → s.SEQ = .idle ∨ s.SEQ = .ready →
    observe a s = some (slot s.S a, s.I, s.J)) ∧
  (∀ (a : Byte) (s : State), s.params.obsPort = false ∨ s.SEQ.isWait = false → observe a s = none) ∧
  State.reset.params.obsPort = false

/-- R31, R32: what the host's two moves on the channels do. A send appends its word to CMD while there is room and changes nothing
when CMD is full (log entry 5); a take removes the oldest response, which is the one the host sees, and no other, and with RSP empty
changes nothing. So words sent one after another stand in CMD in the order sent, and responses are taken in the order of RSP. What
happens to the host's record `sent` is the model's (log entry 7). -/
def Obligations.HostMovesOnChannels : Prop :=
  (∀ (w : Word) (s : State), s.params.depth = .unbounded ∨ (∃ n, s.params.depth = .onePlus n ∧ s.CMD.length < n + 1) →
    hostMove (.send w) s = { s with CMD := s.CMD ++ [w], sent := s.sent ++ [w] }) ∧
  (∀ (w : Word) (s : State) (n : Nat), s.params.depth = .onePlus n → n + 1 ≤ s.CMD.length → hostMove (.send w) s = s) ∧
  (∀ (r : Word) (rs : List Word) (s : State), s.RSP = r :: rs →
    hostSees s = some r ∧ hostMove .take s = { s with RSP := rs, sent := s.sent.tail }) ∧
  (∀ s : State, s.RSP = [] → hostSees s = none ∧ hostMove .take s = s) ∧
  (∀ (ws : List Word) (s : State),
    s.params.depth = .unbounded ∨ (∃ n, s.params.depth = .onePlus n ∧ s.CMD.length + ws.length ≤ n + 1) →
    runEvents (ws.map fun w => .host (.send w)) s = { s with CMD := s.CMD ++ ws, sent := s.sent ++ ws }) ∧
  (∀ (n : Nat) (s : State), (runEvents (List.replicate n (.host .take)) s).RSP = s.RSP.drop n ∧
    hostSees (runEvents (List.replicate n (.host .take)) s) = s.RSP[n]?)

/-- R90, R91, R92, the lines and errors `Obligations.AssemblerMakesTheCommands` leaves: `.key` emits no command, asks for its bytes to
be placed from address 0 upward, and defines KEYLEN as their number until the next `.key`; an empty line makes nothing; KEYLEN as a
number is the KEYLEN in force; a byte list with an item out of range, and a TRANSFORM with KEYLEN out of range, is an error; and a
program is its lines in order, an error if one of them is. Placing changes the listed addresses the host may change (R54) and no
other. That KEYLEN may stand for the number of START, DATA and WORD, is an error before any `.key`, and is range-checked in TRANSFORM,
that a `.key` may be empty, and that the other addresses keep their bytes, are the model's choices (log entry 15); that addresses of
an unanswered START are passed over is log entry 7. -/
def Obligations.AssemblerKeyDirectiveAndOtherLines : Prop :=
  (∀ (kl : Option Nat) (bs : List Nat) (ls : List AsmLine), (∀ b ∈ bs, b ≤ 255) → ∃ ks : List Byte,
    ks.map BitVec.toNat = bs ∧ Asm.assembleLine kl (.key bs) = some [.placeKey ks] ∧ Asm.itemWords (.placeKey ks) = [] ∧
    Asm.assembleFrom kl (.key bs :: ls) = (Asm.assembleFrom (some bs.length) ls).map (.placeKey ks :: ·)) ∧
  (∀ (ks : List Byte) (s : State) (a : Byte), (∀ k, startWord k ∈ s.sent → min k.toNat 256 ≤ a.toNat) →
    keyRead (placeKeyFrom 0 ks s) a = (ks[a.toNat]?).getD (keyRead s a)) ∧
  (∀ kl : Option Nat, Asm.assembleLine kl .blank = some []) ∧
  (∀ L : Nat, Asm.assembleLine (some L) (.start .keylen) = Asm.assembleLine (some L) (.start (.lit L)) ∧
    Asm.assembleLine (some L) (.data .keylen) = Asm.assembleLine (some L) (.data (.lit L)) ∧
    Asm.assembleLine (some L) (.word .keylen) = Asm.assembleLine (some L) (.word (.lit L))) ∧
  (∀ bs : List Nat, Asm.assembleLine none (.start .keylen) = none ∧ Asm.assembleLine none (.data .keylen) = none ∧
    Asm.assembleLine none (.word .keylen) = none ∧ Asm.assembleLine none (.transform bs) = none) ∧
  (∀ (kl : Option Nat) (bs : List Nat), (∃ b ∈ bs, 255 < b) → Asm.assembleLine kl (.key bs) = none ∧
    Asm.assembleLine kl (.datas bs) = none ∧ Asm.assembleLine kl (.transform bs) = none) ∧
  (∀ (L : Nat) (bs : List Nat), 4095 < L → Asm.assembleLine (some L) (.transform bs) = none) ∧
  (∀ kl : Option Nat, Asm.assembleFrom kl [] = some []) ∧
  (∀ (kl : Option Nat) (l : AsmLine) (ls : List AsmLine) (is : List AsmItem), (∀ bs, l ≠ .key bs) →
    Asm.assembleLine kl l = some is → Asm.assembleFrom kl (l :: ls) = (Asm.assembleFrom kl ls).map (is ++ ·)) ∧
  (∀ (kl : Option Nat) (l : AsmLine) (ls : List AsmLine), Asm.assembleLine kl l = none → Asm.assembleFrom kl (l :: ls) = none)
end

