-- ==== Sys2Proof/Laws/Decode.lean ====
section
/-! SUPPORT. The fields of the words the encoder makes (30_encoding.md R81 to R83), and what each field test of `decode` says
of a word. -/

namespace Sys2Proof

theorem opcField_toNat (w : Word) : (opcField w).toNat = w.toNat / 4096 := by
  have := w.isLt
  simp [opcField, BitVec.extractLsb'_toNat, Nat.shiftRight_eq_div_pow]; omega

theorem argField_toNat (w : Word) : (argField w).toNat = w.toNat % 4096 := by
  simp [argField, BitVec.extractLsb'_toNat]

theorem mbzField_toNat (w : Word) : (mbzField w).toNat = w.toNat / 256 % 16 := by
  simp [mbzField, BitVec.extractLsb'_toNat, Nat.shiftRight_eq_div_pow]

theorem dinField_toNat (w : Word) : (dinField w).toNat = w.toNat % 256 := by
  simp [dinField, BitVec.extractLsb'_toNat]

theorem startWord_toNat (k : Klen) : (startWord k).toNat = 4096 + k.toNat := by
  have := k.isLt
  simp [startWord, BitVec.toNat_add, BitVec.toNat_setWidth]; omega

theorem dataWord_toNat (d : Byte) : (dataWord d).toNat = 8192 + d.toNat := by
  have := d.isLt
  simp [dataWord, BitVec.toNat_add, BitVec.toNat_setWidth]; omega

@[simp] theorem opcField_startWord (k : Klen) : opcField (startWord k) = 0b0001#4 := by
  have := k.isLt
  apply BitVec.eq_of_toNat_eq; rw [opcField_toNat, startWord_toNat]; simp; omega

@[simp] theorem argField_startWord (k : Klen) : argField (startWord k) = k := by
  have := k.isLt
  apply BitVec.eq_of_toNat_eq; rw [argField_toNat, startWord_toNat]; omega

@[simp] theorem opcField_dataWord (d : Byte) : opcField (dataWord d) = 0b0010#4 := by
  have := d.isLt
  apply BitVec.eq_of_toNat_eq; rw [opcField_toNat, dataWord_toNat]; simp; omega

@[simp] theorem mbzField_dataWord (d : Byte) : mbzField (dataWord d) = 0#4 := by
  have := d.isLt
  apply BitVec.eq_of_toNat_eq; rw [mbzField_toNat, dataWord_toNat]; simp; omega

@[simp] theorem dinField_dataWord (d : Byte) : dinField (dataWord d) = d := by
  have := d.isLt
  apply BitVec.eq_of_toNat_eq; rw [dinField_toNat, dataWord_toNat]; omega

/-- What decoding a word can answer: one of the four cases of R94, each with the word's own fields. -/
theorem decodeCommand_cases (w : Word) :
    (opcField w = 0b0001#4 ∧ decodeCommand w = .ok (.start (argField w))) ∨
    (opcField w = 0b0010#4 ∧ mbzField w = 0#4 ∧ decodeCommand w = .ok (.data (dinField w))) ∨
    (opcField w = 0b0011#4 ∧ argField w = 0#12 ∧ decodeCommand w = .ok .endCall) ∨
    (∃ r, decodeCommand w = .error r) := by
  unfold decodeCommand
  split_ifs <;> simp_all

@[simp] theorem decodeCommand_startWord (k : Klen) : decodeCommand (startWord k) = .ok (.start k) := by
  simp [decodeCommand]

@[simp] theorem decodeCommand_dataWord (d : Byte) : decodeCommand (dataWord d) = .ok (.data d) := by
  simp [decodeCommand]

@[simp] theorem decodeCommand_endWord : decodeCommand endWord = .ok .endCall := by decide

/-- Only the START word of R81 decodes to START. -/
theorem eq_startWord {w : Word} {k : Klen} (h : decodeCommand w = .ok (.start k)) : w = startWord k := by
  rcases decodeCommand_cases w with ⟨ho, hd⟩ | ⟨_, _, hd⟩ | ⟨_, _, hd⟩ | ⟨_, hd⟩ <;> rw [hd] at h
  · injection h with h; injection h with h; subst h
    have := congrArg BitVec.toNat ho
    rw [opcField_toNat] at this; simp at this
    apply BitVec.eq_of_toNat_eq; rw [startWord_toNat, argField_toNat]; omega
  all_goals simp_all

/-- Only the DATA word of R82 decodes to DATA. -/
theorem eq_dataWord {w : Word} {d : Byte} (h : decodeCommand w = .ok (.data d)) : w = dataWord d := by
  rcases decodeCommand_cases w with ⟨_, hd⟩ | ⟨ho, hm, hd⟩ | ⟨_, _, hd⟩ | ⟨_, hd⟩ <;> rw [hd] at h
  · simp_all
  · injection h with h; injection h with h; subst h
    have h₁ := congrArg BitVec.toNat ho
    have h₂ := congrArg BitVec.toNat hm
    rw [opcField_toNat] at h₁; rw [mbzField_toNat] at h₂; simp at h₁ h₂
    apply BitVec.eq_of_toNat_eq; rw [dataWord_toNat, dinField_toNat]; omega
  all_goals simp_all

/-- Only the END word of R83 decodes to END. -/
theorem eq_endWord {w : Word} (h : decodeCommand w = .ok .endCall) : w = endWord := by
  rcases decodeCommand_cases w with ⟨_, hd⟩ | ⟨_, _, hd⟩ | ⟨ho, ha, hd⟩ | ⟨_, hd⟩ <;> rw [hd] at h
  · simp_all
  · simp_all
  · have h₁ := congrArg BitVec.toNat ho
    have h₂ := congrArg BitVec.toNat ha
    rw [opcField_toNat] at h₁; rw [argField_toNat] at h₂; simp at h₁ h₂
    apply BitVec.eq_of_toNat_eq; simp [endWord]; omega
  · simp_all

/-- What a command word decodes to is a command. -/
theorem decodeCommand_ok {w : Word} {i : Instr} (h : decodeCommand w = .ok i) :
    (∃ k, i = .start k ∧ w = startWord k) ∨ (∃ d, i = .data d ∧ w = dataWord d) ∨ (i = .endCall ∧ w = endWord) := by
  rcases decodeCommand_cases w with ⟨_, hd⟩ | ⟨_, _, hd⟩ | ⟨_, _, hd⟩ | ⟨_, hd⟩ <;> rw [hd] at h <;> cases h
  · exact .inl ⟨_, rfl, eq_startWord hd⟩
  · exact .inr (.inl ⟨_, rfl, eq_dataWord hd⟩)
  · exact .inr (.inr ⟨rfl, eq_endWord hd⟩)

/-- The mask of START's row keeps OPC (R93). -/
theorem and_startMask (w : Word) : w &&& 0xF000#16 = (w >>> 12) <<< 12 := by
  apply BitVec.eq_of_getLsbD_eq
  intro i hi
  simp only [BitVec.getLsbD_and, BitVec.getLsbD_shiftLeft, BitVec.getLsbD_ushiftRight]
  interval_cases i <;> simp

/-- The mask of DATA's row keeps OPC and the must-be-zero bits (R93). -/
theorem and_dataMask (w : Word) : w &&& 0xFF00#16 = (w >>> 8) <<< 8 := by
  apply BitVec.eq_of_getLsbD_eq
  intro i hi
  simp only [BitVec.getLsbD_and, BitVec.getLsbD_shiftLeft, BitVec.getLsbD_ushiftRight]
  interval_cases i <;> simp

theorem and_startMask_toNat (w : Word) : (w &&& 0xF000#16).toNat = w.toNat / 4096 * 4096 := by
  have := w.isLt
  rw [and_startMask]
  simp [BitVec.toNat_shiftLeft, Nat.shiftLeft_eq, Nat.shiftRight_eq_div_pow]; omega

theorem and_dataMask_toNat (w : Word) : (w &&& 0xFF00#16).toNat = w.toNat / 256 * 256 := by
  have := w.isLt
  rw [and_dataMask]
  simp [BitVec.toNat_shiftLeft, Nat.shiftLeft_eq, Nat.shiftRight_eq_div_pow]; omega

end Sys2Proof
end

