-- ==== Sys2Proof/Laws/Seq.lean ====
section
/-! SUPPORT. The codes of SEQ and what they select (10_state.md R26), and the fields of CMDR under the spec's masks
(10_state.md R29). -/

namespace Sys2Proof.Machine

theorem decodeUop_bits (q : SeqCode) : decodeUop q.bits = .ok q.uop := by cases q <;> rfl

@[simp] theorem seqOf_uop (q : SeqCode) : seqOf q.uop = some q := by cases q <;> rfl

/-- A code that decodes is the code of one of SEQ's ten values. -/
theorem decodeUop_ok {c : SeqBits} {i : Instr} (h : decodeUop c = .ok i) : ∃ q : SeqCode, q.bits = c ∧ q.uop = i := by
  unfold decodeUop at h
  split at h
  case h_11 => cases h
  case h_1 hc => injection h with h; exact ⟨.idle, (BitVec.eq_of_toNat_eq hc).symm, h⟩
  case h_2 hc => injection h with h; exact ⟨.chk, (BitVec.eq_of_toNat_eq hc).symm, h⟩
  case h_3 hc => injection h with h; exact ⟨.init, (BitVec.eq_of_toNat_eq hc).symm, h⟩
  case h_4 hc => injection h with h; exact ⟨.kbeg, (BitVec.eq_of_toNat_eq hc).symm, h⟩
  case h_5 hc => injection h with h; exact ⟨.kstep, (BitVec.eq_of_toNat_eq hc).symm, h⟩
  case h_6 hc => injection h with h; exact ⟨.prst, (BitVec.eq_of_toNat_eq hc).symm, h⟩
  case h_7 hc => injection h with h; exact ⟨.ready, (BitVec.eq_of_toNat_eq hc).symm, h⟩
  case h_8 hc => injection h with h; exact ⟨.pstep, (BitVec.eq_of_toNat_eq hc).symm, h⟩
  case h_9 hc => injection h with h; exact ⟨.xorb, (BitVec.eq_of_toNat_eq hc).symm, h⟩
  case h_10 hc => injection h with h; exact ⟨.endc, (BitVec.eq_of_toNat_eq hc).symm, h⟩

theorem isWait_iff (q : SeqCode) : q.isWait = true ↔ q = .idle ∨ q = .ready := by cases q <;> simp [SeqCode.isWait]

/-- KLEN under its mask: CMDR[11:0]. -/
theorem klenOf_eq_mask (c : Word) : klenOf c = (c &&& 0x0FFF#16).toNat := by
  rw [klenOf, argField_toNat, BitVec.toNat_and]
  exact (Nat.and_two_pow_sub_one_eq_mod c.toNat 12).symm

/-- DIN under its mask: CMDR[7:0]. -/
theorem dinOf_eq_mask (c : Word) : (dinOf c).setWidth 16 = c &&& 0x00FF#16 := by
  apply BitVec.eq_of_toNat_eq
  rw [BitVec.toNat_and, BitVec.toNat_setWidth, dinOf, dinField_toNat, Nat.mod_eq_of_lt (by omega)]
  exact (Nat.and_two_pow_sub_one_eq_mod c.toNat 8).symm

/-- The key address of an iteration, for a key that is not empty (R134). -/
theorem keyAddr_toNat {L : Nat} (i : Byte) (h : L ≠ 0) : (keyAddr L i).toNat = i.toNat % L := by
  have h₁ := Nat.mod_le i.toNat L
  have h₂ := i.isLt
  simp [keyAddr, h]; omega

end Sys2Proof.Machine
end

