-- ==== Sys2Proof/Laws/State.lean ====
section
/-! SUPPORT. One lemma per field per update of the state, so that no later proof unfolds a record update. -/

namespace Sys2Proof.Machine

variable (s : State)

@[simp] theorem cmdTake_S : (cmdTake s).S = s.S := rfl
@[simp] theorem cmdTake_I : (cmdTake s).I = s.I := rfl
@[simp] theorem cmdTake_J : (cmdTake s).J = s.J := rfl
@[simp] theorem cmdTake_SEQ : (cmdTake s).SEQ = s.SEQ := rfl
@[simp] theorem cmdTake_CMDR : (cmdTake s).CMDR = s.CMDR := rfl
@[simp] theorem cmdTake_Z : (cmdTake s).Z = s.Z := rfl
@[simp] theorem cmdTake_CMD : (cmdTake s).CMD = s.CMD.tail := rfl
@[simp] theorem cmdTake_RSP : (cmdTake s).RSP = s.RSP := rfl
@[simp] theorem cmdTake_KEY : (cmdTake s).KEY = s.KEY := rfl
@[simp] theorem cmdTake_params : (cmdTake s).params = s.params := rfl
@[simp] theorem cmdTake_level : (cmdTake s).level = s.level := rfl
@[simp] theorem cmdTake_sent : (cmdTake s).sent = s.sent := rfl
@[simp] theorem cmdTake_draw : (cmdTake s).draw = s.draw := rfl

@[simp] theorem rspEmit_S (r : Response) : (rspEmit r s).S = s.S := rfl
@[simp] theorem rspEmit_I (r : Response) : (rspEmit r s).I = s.I := rfl
@[simp] theorem rspEmit_J (r : Response) : (rspEmit r s).J = s.J := rfl
@[simp] theorem rspEmit_SEQ (r : Response) : (rspEmit r s).SEQ = s.SEQ := rfl
@[simp] theorem rspEmit_CMDR (r : Response) : (rspEmit r s).CMDR = s.CMDR := rfl
@[simp] theorem rspEmit_Z (r : Response) : (rspEmit r s).Z = s.Z := rfl
@[simp] theorem rspEmit_CMD (r : Response) : (rspEmit r s).CMD = s.CMD := rfl
@[simp] theorem rspEmit_RSP (r : Response) : (rspEmit r s).RSP = s.RSP ++ [responseWord r] := rfl
@[simp] theorem rspEmit_KEY (r : Response) : (rspEmit r s).KEY = s.KEY := rfl
@[simp] theorem rspEmit_params (r : Response) : (rspEmit r s).params = s.params := rfl
@[simp] theorem rspEmit_level (r : Response) : (rspEmit r s).level = s.level := rfl
@[simp] theorem rspEmit_sent (r : Response) : (rspEmit r s).sent = s.sent := rfl
@[simp] theorem rspEmit_draw (r : Response) : (rspEmit r s).draw = s.draw := rfl

@[simp] theorem raiseError_S (e : ErrCode) (back : SeqCode) : (raiseError e back s).S = s.S := rfl
@[simp] theorem raiseError_I (e : ErrCode) (back : SeqCode) : (raiseError e back s).I = s.I := rfl
@[simp] theorem raiseError_J (e : ErrCode) (back : SeqCode) : (raiseError e back s).J = s.J := rfl
@[simp] theorem raiseError_SEQ (e : ErrCode) (back : SeqCode) : (raiseError e back s).SEQ = back := rfl
@[simp] theorem raiseError_CMDR (e : ErrCode) (back : SeqCode) : (raiseError e back s).CMDR = s.CMDR := rfl
@[simp] theorem raiseError_Z (e : ErrCode) (back : SeqCode) : (raiseError e back s).Z = s.Z := rfl
@[simp] theorem raiseError_CMD (e : ErrCode) (back : SeqCode) : (raiseError e back s).CMD = s.CMD := rfl
@[simp] theorem raiseError_RSP (e : ErrCode) (back : SeqCode) : (raiseError e back s).RSP = s.RSP ++ [responseWord (.err e)] := rfl
@[simp] theorem raiseError_KEY (e : ErrCode) (back : SeqCode) : (raiseError e back s).KEY = s.KEY := rfl
@[simp] theorem raiseError_params (e : ErrCode) (back : SeqCode) : (raiseError e back s).params = s.params := rfl
@[simp] theorem raiseError_level (e : ErrCode) (back : SeqCode) : (raiseError e back s).level = s.level := rfl
@[simp] theorem raiseError_sent (e : ErrCode) (back : SeqCode) : (raiseError e back s).sent = s.sent := rfl
@[simp] theorem raiseError_draw (e : ErrCode) (back : SeqCode) : (raiseError e back s).draw = s.draw := rfl

@[simp] theorem acceptWord_S (w : Word) (go : SeqCode) : (acceptWord w go s).S = s.S := rfl
@[simp] theorem acceptWord_I (w : Word) (go : SeqCode) : (acceptWord w go s).I = s.I := rfl
@[simp] theorem acceptWord_J (w : Word) (go : SeqCode) : (acceptWord w go s).J = s.J := rfl
@[simp] theorem acceptWord_SEQ (w : Word) (go : SeqCode) : (acceptWord w go s).SEQ = go := rfl
@[simp] theorem acceptWord_CMDR (w : Word) (go : SeqCode) : (acceptWord w go s).CMDR = w := rfl
@[simp] theorem acceptWord_Z (w : Word) (go : SeqCode) : (acceptWord w go s).Z = s.Z := rfl
@[simp] theorem acceptWord_CMD (w : Word) (go : SeqCode) : (acceptWord w go s).CMD = s.CMD.tail := rfl
@[simp] theorem acceptWord_RSP (w : Word) (go : SeqCode) : (acceptWord w go s).RSP = s.RSP := rfl
@[simp] theorem acceptWord_KEY (w : Word) (go : SeqCode) : (acceptWord w go s).KEY = s.KEY := rfl
@[simp] theorem acceptWord_params (w : Word) (go : SeqCode) : (acceptWord w go s).params = s.params := rfl
@[simp] theorem acceptWord_level (w : Word) (go : SeqCode) : (acceptWord w go s).level = s.level := rfl
@[simp] theorem acceptWord_sent (w : Word) (go : SeqCode) : (acceptWord w go s).sent = s.sent := rfl
@[simp] theorem acceptWord_draw (w : Word) (go : SeqCode) : (acceptWord w go s).draw = s.draw := rfl

@[simp] theorem discardCall_S : (discardCall s).S = Slots.tabulate (Config.freeSlot s.draw) := rfl
@[simp] theorem discardCall_I : (discardCall s).I = Config.freeI s.draw := rfl
@[simp] theorem discardCall_J : (discardCall s).J = Config.freeJ s.draw := rfl
@[simp] theorem discardCall_SEQ : (discardCall s).SEQ = s.SEQ := rfl
@[simp] theorem discardCall_CMDR : (discardCall s).CMDR = s.CMDR := rfl
@[simp] theorem discardCall_Z : (discardCall s).Z = Config.freeZ s.draw := rfl
@[simp] theorem discardCall_CMD : (discardCall s).CMD = s.CMD := rfl
@[simp] theorem discardCall_RSP : (discardCall s).RSP = s.RSP := rfl
@[simp] theorem discardCall_KEY : (discardCall s).KEY = s.KEY := rfl
@[simp] theorem discardCall_params : (discardCall s).params = s.params := rfl
@[simp] theorem discardCall_level : (discardCall s).level = s.level := rfl
@[simp] theorem discardCall_sent : (discardCall s).sent = s.sent := rfl
@[simp] theorem discardCall_draw : (discardCall s).draw = s.draw + 1 := rfl

@[simp] theorem generate_S : (generate s).S = swap s.S (s.I + 1) (prgaIndex s.S (s.I + 1) s.J) := rfl
@[simp] theorem generate_I : (generate s).I = s.I + 1 := rfl
@[simp] theorem generate_J : (generate s).J = prgaIndex s.S (s.I + 1) s.J := rfl
@[simp] theorem generate_SEQ : (generate s).SEQ = s.SEQ := rfl
@[simp] theorem generate_CMDR : (generate s).CMDR = s.CMDR := rfl
@[simp] theorem generate_Z : (generate s).Z = keystreamByte (swap s.S (s.I + 1) (prgaIndex s.S (s.I + 1) s.J)) (s.I + 1) (prgaIndex s.S (s.I + 1) s.J) := rfl
@[simp] theorem generate_CMD : (generate s).CMD = s.CMD := rfl
@[simp] theorem generate_RSP : (generate s).RSP = s.RSP := rfl
@[simp] theorem generate_KEY : (generate s).KEY = s.KEY := rfl
@[simp] theorem generate_params : (generate s).params = s.params := rfl
@[simp] theorem generate_level : (generate s).level = s.level := rfl
@[simp] theorem generate_sent : (generate s).sent = s.sent := rfl
@[simp] theorem generate_draw : (generate s).draw = s.draw := rfl

@[simp] theorem hostReset_S : (hostReset s).S = Slots.tabulate (Config.freeSlot s.draw) := rfl
@[simp] theorem hostReset_I : (hostReset s).I = Config.freeI s.draw := rfl
@[simp] theorem hostReset_J : (hostReset s).J = Config.freeJ s.draw := rfl
@[simp] theorem hostReset_SEQ : (hostReset s).SEQ = .idle := rfl
@[simp] theorem hostReset_CMDR : (hostReset s).CMDR = Config.freeCmdr s.draw := rfl
@[simp] theorem hostReset_Z : (hostReset s).Z = Config.freeZ s.draw := rfl
@[simp] theorem hostReset_CMD : (hostReset s).CMD = [] := rfl
@[simp] theorem hostReset_RSP : (hostReset s).RSP = [] := rfl
@[simp] theorem hostReset_KEY : (hostReset s).KEY = s.KEY := rfl
@[simp] theorem hostReset_params : (hostReset s).params = s.params := rfl
@[simp] theorem hostReset_level : (hostReset s).level = s.level := rfl
@[simp] theorem hostReset_sent : (hostReset s).sent = [] := rfl
@[simp] theorem hostReset_draw : (hostReset s).draw = s.draw + 1 := rfl

@[simp] theorem hostTake_S : (hostTake s).S = s.S := rfl
@[simp] theorem hostTake_I : (hostTake s).I = s.I := rfl
@[simp] theorem hostTake_J : (hostTake s).J = s.J := rfl
@[simp] theorem hostTake_SEQ : (hostTake s).SEQ = s.SEQ := rfl
@[simp] theorem hostTake_CMDR : (hostTake s).CMDR = s.CMDR := rfl
@[simp] theorem hostTake_Z : (hostTake s).Z = s.Z := rfl
@[simp] theorem hostTake_CMD : (hostTake s).CMD = s.CMD := rfl
@[simp] theorem hostTake_RSP : (hostTake s).RSP = s.RSP.tail := rfl
@[simp] theorem hostTake_KEY : (hostTake s).KEY = s.KEY := rfl
@[simp] theorem hostTake_params : (hostTake s).params = s.params := rfl
@[simp] theorem hostTake_level : (hostTake s).level = s.level := rfl
@[simp] theorem hostTake_sent : (hostTake s).sent = if s.RSP.isEmpty then s.sent else s.sent.tail := rfl
@[simp] theorem hostTake_draw : (hostTake s).draw = s.draw := rfl

end Sys2Proof.Machine
end

