-- ==== Sys2Proof/Laws/Step.lean ====
section
/-! SUPPORT. Every step answers a next state, and what each shared operation can do, said once. -/

namespace Sys2Proof.Machine

/-- The state after an instruction; `exec` always answers one. -/
theorem exec_answers (i : Instr) (s : State) : ∃ t, exec i s = .next t := by
  cases i <;> exact ⟨_, rfl⟩

theorem step_answers (s : State) : ∃ t, step s = .next t := by
  unfold step
  cases fetch s with
  | instr i => exact exec_answers i s
  | illegal w => exact ⟨_, rfl⟩
  | waiting => exact ⟨_, rfl⟩

/-- An engine event is the step. -/
theorem applyEvent_engine {s t : State} (h : step s = .next t) : applyEvent .engine s = t := by
  simp [applyEvent, h]

/-- At micro level a step is the micro-operation SEQ selects (R88). -/
theorem step_micro {s : State} (h : s.level = .micro) : step s = exec s.SEQ.uop s := by
  simp [step, fetch, h]

/-- At command level, outside the wait states, a step is the micro-operation SEQ selects. -/
theorem step_command_busy {s : State} (h : s.level = .command) (hw : s.SEQ.isWait = false) :
    step s = exec s.SEQ.uop s := by
  simp [step, fetch, h, hw]

/-- While a command runs a step is the micro-operation SEQ selects, at either level. -/
theorem step_busy {s : State} (h : s.SEQ.isWait = false) : step s = exec s.SEQ.uop s := by
  cases hl : s.level
  · exact step_micro hl
  · exact step_command_busy hl h

/-- At command level, in a wait state, a legal oldest word is executed as a command (R111). -/
theorem step_command {s : State} {w : Word} {rest : List Word} {i : Instr} (h : s.level = .command)
    (hw : s.SEQ.isWait = true) (hc : s.CMD = w :: rest) (hd : decodeCommand w = .ok i) : step s = exec i s := by
  simp [step, fetch, h, hw, hc, hd]

/-- At command level, in a wait state, an illegal oldest word is refused (R183). -/
theorem step_command_illegal {s : State} {w : Word} {rest : List Word} {r : Reject} (h : s.level = .command)
    (hw : s.SEQ.isWait = true) (hc : s.CMD = w :: rest) (hd : decodeCommand w = .error r) :
    step s = .next (refuseWord .illegalCommand w s) := by
  simp [step, fetch, h, hw, hc, hd]

/-- A refusal waits when RSP is full and otherwise does exactly what R184 says. -/
theorem refuseWord_cases (e : ErrCode) (w : Word) (s : State) :
    (rspFull s = true ∧ refuseWord e w s = s) ∨
    (rspFull s = false ∧
      refuseWord e w s = { s with CMD := s.CMD.tail, CMDR := w, RSP := s.RSP ++ [responseWord (.err e)] }) := by
  unfold refuseWord
  cases h : rspFull s <;> simp [raiseError, rspEmit, cmdTake]

/-- What DISPATCH can do: nothing, refuse the oldest word, or accept it (R110). -/
theorem dispatch_cases (code : SeqCode) (admits : Instr → Option SeqCode) (s : State) :
    dispatch code admits s = s ∨
    (∃ w rest e, s.SEQ = code ∧ s.CMD = w :: rest ∧ dispatch code admits s = refuseWord e w s) ∨
    (∃ w rest c go, s.SEQ = code ∧ s.CMD = w :: rest ∧ decodeCommand w = .ok c ∧ admits c = some go ∧
      dispatch code admits s = acceptWord w go s) := by
  unfold dispatch
  by_cases hq : s.SEQ = code
  · cases hc : s.CMD with
    | nil => simp [hq]
    | cons w rest =>
      cases hd : decodeCommand w with
      | error r => right; left; exact ⟨w, rest, .illegalCommand, hq, rfl, by simp [hq, hd]⟩
      | ok c =>
        cases ha : admits c with
        | none => right; left; exact ⟨w, rest, .protocol, hq, rfl, by simp [hq, hd, ha]⟩
        | some go => right; right; exact ⟨w, rest, c, go, hq, rfl, hd, ha, by simp [hq, hd, ha]⟩
  · simp [hq]

/-- What a command can do: nothing, be refused with Protocol, or have its effect (R112 to R114). -/
theorem takeCommand_cases (admitted refused : SeqCode) (w : Word) (eff : State → State) (s : State) :
    takeCommand admitted refused w eff s = s ∨
    (s.SEQ = refused ∧ takeCommand admitted refused w eff s = refuseWord .protocol w s) ∨
    (s.SEQ = admitted ∧ rspFull s = false ∧
      takeCommand admitted refused w eff s = eff { cmdTake s with CMDR := w }) := by
  by_cases h₁ : s.SEQ = admitted
  · cases h : rspFull s
    · right; right; exact ⟨h₁, rfl, by simp [takeCommand, h₁, h]⟩
    · left; simp [takeCommand, h₁, h]
  · by_cases h₂ : s.SEQ = refused
    · right; left; exact ⟨h₂, by rw [takeCommand, if_neg h₁, if_pos h₂]⟩
    · left; rw [takeCommand, if_neg h₁, if_neg h₂]

/-- The engine never writes what is not its own: the KEY space, the parameters, the level of description, the host's record. -/
theorem exec_outside {i : Instr} {s t : State} (h : exec i s = .next t) :
    t.KEY = s.KEY ∧ t.params = s.params ∧ t.level = s.level ∧ t.sent = s.sent := by
  have hr : ∀ e w, (refuseWord e w s).KEY = s.KEY ∧ (refuseWord e w s).params = s.params ∧
      (refuseWord e w s).level = s.level ∧ (refuseWord e w s).sent = s.sent := by
    intro e w; rcases refuseWord_cases e w s with ⟨_, h⟩ | ⟨_, h⟩ <;> simp [h]
  have hd : ∀ c a, (dispatch c a s).KEY = s.KEY ∧ (dispatch c a s).params = s.params ∧
      (dispatch c a s).level = s.level ∧ (dispatch c a s).sent = s.sent := by
    intro c a
    rcases dispatch_cases c a s with h | ⟨w, _, e, _, _, h⟩ | ⟨w, _, _, go, _, _, _, _, h⟩ <;> rw [h]
    · simp
    · exact hr e w
    · simp
  have hc : ∀ a r w eff, (∀ u : State, (eff u).KEY = u.KEY ∧ (eff u).params = u.params ∧ (eff u).level = u.level ∧
      (eff u).sent = u.sent) →
      (takeCommand a r w eff s).KEY = s.KEY ∧ (takeCommand a r w eff s).params = s.params ∧
      (takeCommand a r w eff s).level = s.level ∧ (takeCommand a r w eff s).sent = s.sent := by
    intro a r w eff he
    rcases takeCommand_cases a r w eff s with h | ⟨_, h⟩ | ⟨_, _, h⟩ <;> rw [h]
    · simp
    · exact hr _ w
    · simpa using he { cmdTake s with CMDR := w }
  cases i <;> simp only [exec] at h <;> injection h with h <;> subst h
  case start k => exact hc _ _ _ _ fun u => by unfold startEffect; split <;> simp
  case data d => exact hc _ _ _ _ fun u => by simp [dataEffect]
  case endCall => exact hc _ _ _ _ fun u => by simp [endEffect]
  case dispatchIdle => exact hd _ _
  case dispatchReady => exact hd _ _
  all_goals (first | (split_ifs <;> simp) | simp)

end Sys2Proof.Machine
end

