-- ==== Sys2Proof/Laws/Commands.lean ====
section
/-! SUPPORT. What each command does in each wait state, one lemma a case (40_engine_commands.md R112 to R114), and when RSP has
room. -/

namespace Sys2Proof.Machine

variable {s : State}

/-- RSP has room when CHANNEL_DEPTH leaves some (R32). -/
theorem rspFull_eq_false (h : ∀ n, s.params.depth.capacity = some n → s.RSP.length + 1 ≤ n) : rspFull s = false := by
  unfold rspFull channelFull
  cases hd : s.params.depth.capacity with
  | none => rfl
  | some n => have := h n hd; simp; omega

/-- A refusal with room in RSP (R184). -/
theorem refuseWord_room (e : ErrCode) (w : Word) (hr : rspFull s = false) :
    refuseWord e w s = { s with CMD := s.CMD.tail, CMDR := w, RSP := s.RSP ++ [responseWord (.err e)] } := by
  simp [refuseWord, hr, raiseError, rspEmit, cmdTake]

theorem startEffect_zero : startEffect 0 s = raiseError .invalidKey .idle s := if_pos rfl

theorem startEffect_pos {k : Klen} (hk : k ≠ 0) :
    startEffect k s =
      { rspEmit .ack s with
        S := ksa fun i => keyRead s (keyAddr k.toNat (BitVec.ofNat 8 i)), I := 0, J := 0, SEQ := .ready } := if_neg hk

theorem exec_start_idle (k : Klen) (hq : s.SEQ = .idle) (hr : rspFull s = false) :
    exec (.start k) s = .next (startEffect k { s with CMD := s.CMD.tail, CMDR := startWord k }) := by
  simp only [exec, execStart, takeCommand, if_pos hq, hr, Bool.false_eq_true, if_false, cmdTake]

theorem exec_start_ready (k : Klen) (hq : s.SEQ = .ready) (hr : rspFull s = false) :
    exec (.start k) s =
      .next { s with CMD := s.CMD.tail, CMDR := startWord k, RSP := s.RSP ++ [responseWord (.err .protocol)] } := by
  rw [← refuseWord_room .protocol (startWord k) hr]
  simp only [exec, execStart, takeCommand, if_neg (show s.SEQ ≠ .idle by simp [hq]), if_pos hq]

theorem exec_data_ready (d : Byte) (hq : s.SEQ = .ready) (hr : rspFull s = false) :
    exec (.data d) s = .next (dataEffect d { s with CMD := s.CMD.tail, CMDR := dataWord d }) := by
  simp only [exec, execData, takeCommand, if_pos hq, hr, Bool.false_eq_true, if_false, cmdTake]

theorem exec_data_idle (d : Byte) (hq : s.SEQ = .idle) (hr : rspFull s = false) :
    exec (.data d) s =
      .next { s with CMD := s.CMD.tail, CMDR := dataWord d, RSP := s.RSP ++ [responseWord (.err .protocol)] } := by
  rw [← refuseWord_room .protocol (dataWord d) hr]
  simp only [exec, execData, takeCommand, if_neg (show s.SEQ ≠ .ready by simp [hq]), if_pos hq]

theorem exec_end_ready (hq : s.SEQ = .ready) (hr : rspFull s = false) :
    exec .endCall s = .next (endEffect { s with CMD := s.CMD.tail, CMDR := endWord }) := by
  simp only [exec, execEnd, takeCommand, if_pos hq, hr, Bool.false_eq_true, if_false, cmdTake]

theorem exec_end_idle (hq : s.SEQ = .idle) (hr : rspFull s = false) :
    exec .endCall s =
      .next { s with CMD := s.CMD.tail, CMDR := endWord, RSP := s.RSP ++ [responseWord (.err .protocol)] } := by
  rw [← refuseWord_room .protocol endWord hr]
  simp only [exec, execEnd, takeCommand, if_neg (show s.SEQ ≠ .ready by simp [hq]), if_pos hq]

/-- A run of `n + m` steps is a run of `m` steps after one of `n`. -/
theorem runSteps_add (n m : Nat) (s : State) : runSteps (n + m) s = runSteps m (runSteps n s) := by
  induction n generalizing s with
  | zero => simp [runSteps]
  | succ n ih => rw [Nat.succ_add]; exact ih _

/-- One more step at the end of a run. -/
theorem runSteps_succ (n : Nat) (s : State) : runSteps (n + 1) s = applyEvent .engine (runSteps n s) :=
  runSteps_add n 1 s

theorem responseWord_invalidKey : responseWord (.err .invalidKey) = 0xF001 := by decide

theorem responseWord_protocol : responseWord (.err .protocol) = 0xF002 := by decide

theorem responseWord_illegalCommand : responseWord (.err .illegalCommand) = 0xF003 := by decide

/-- A BYTE response is none of the other words (R87). -/
theorem responseWord_byte_ne (v : Byte) :
    responseWord (.byte v) ≠ 0x1000 ∧ responseWord (.byte v) ≠ 0xF001 ∧ responseWord (.byte v) ≠ 0xF002 ∧
      responseWord (.byte v) ≠ 0xF003 := by
  revert v; decide

/-- What a step does with the oldest word in a wait state, with room in RSP: it is illegal, or a command SEQ does not admit,
or an admitted START, DATA or END (R110 to R114). -/
theorem step_taken {s : State} {w : Word} {rest : List Word} (hq : s.SEQ.isWait = true) (hc : s.CMD = w :: rest)
    (hr : rspFull s = false) :
    ((∃ r, decodeCommand w = .error r) ∧
      step s = .next { s with CMD := rest, CMDR := w, RSP := s.RSP ++ [0xF003] }) ∨
    (((s.SEQ = .ready ∧ ∃ k, decodeCommand w = .ok (.start k)) ∨
        (s.SEQ = .idle ∧ ((∃ d, decodeCommand w = .ok (.data d)) ∨ decodeCommand w = .ok .endCall))) ∧
      step s = .next { s with CMD := rest, CMDR := w, RSP := s.RSP ++ [0xF002] }) ∨
    (∃ k, s.SEQ = .idle ∧ decodeCommand w = .ok (.start k) ∧
      step s = .next (if s.level = .micro then { s with CMD := rest, CMDR := w, SEQ := .chk }
        else startEffect k { s with CMD := rest, CMDR := w })) ∨
    (∃ d, s.SEQ = .ready ∧ decodeCommand w = .ok (.data d) ∧
      step s = .next (if s.level = .micro then { s with CMD := rest, CMDR := w, SEQ := .pstep }
        else dataEffect d { s with CMD := rest, CMDR := w })) ∨
    (s.SEQ = .ready ∧ decodeCommand w = .ok .endCall ∧
      step s = .next (if s.level = .micro then { s with CMD := rest, CMDR := w, SEQ := .endc }
        else endEffect { s with CMD := rest, CMDR := w })) := by
  have hrf : ∀ e, refuseWord e w s = { s with CMD := rest, CMDR := w, RSP := s.RSP ++ [responseWord (.err e)] } := by
    intro e; simp [refuseWord, hr, raiseError, rspEmit, cmdTake, hc]
  have hcase := (isWait_iff _).1 hq
  have hmic : s.level = .micro → step s = .next (if s.SEQ = .idle then dispatch .idle admitsIdle s else dispatch .ready admitsReady s) := by
    intro h; rw [step_micro h]; rcases hcase with h | h <;> simp [h, SeqCode.uop, exec, execDispatchIdle, execDispatchReady]
  cases hd : decodeCommand w with
  | error r =>
    left; refine ⟨⟨r, rfl⟩, ?_⟩
    rw [← responseWord_illegalCommand, ← hrf]
    cases hl : s.level with
    | micro => rw [hmic hl]; rcases hcase with h | h <;> simp [dispatch, h, hc, hd]
    | command => exact step_command_illegal hl hq hc hd
  | ok i =>
    right
    have hcom : s.level = .command → step s = exec i s := fun hl => step_command hl hq hc hd
    rcases decodeCommand_ok hd with ⟨k, rfl, hw⟩ | ⟨k, rfl, hw⟩ | ⟨rfl, hw⟩ <;> rcases hcase with h | h
    · right; left; refine ⟨k, h, rfl, ?_⟩
      cases hl : s.level with
      | micro => rw [hmic hl]; simp [dispatch, h, hc, hd, admitsIdle, acceptWord, cmdTake, hl]
      | command => rw [hcom hl]; simp [exec, execStart, takeCommand, h, hr, cmdTake, hc, hw, hl]
    · left; refine ⟨.inl ⟨h, k, rfl⟩, ?_⟩; rw [← responseWord_protocol, ← hrf]
      cases hl : s.level with
      | micro => rw [hmic hl]; simp [dispatch, h, hc, hd, admitsReady]
      | command => rw [hcom hl]; simp [exec, execStart, takeCommand, h, hw]
    · left; refine ⟨.inr ⟨h, .inl ⟨k, rfl⟩⟩, ?_⟩; rw [← responseWord_protocol, ← hrf]
      cases hl : s.level with
      | micro => rw [hmic hl]; simp [dispatch, h, hc, hd, admitsIdle]
      | command => rw [hcom hl]; simp [exec, execData, takeCommand, h, hw]
    · right; right; left; refine ⟨k, h, rfl, ?_⟩
      cases hl : s.level with
      | micro => rw [hmic hl]; simp [dispatch, h, hc, hd, admitsReady, acceptWord, cmdTake, hl]
      | command => rw [hcom hl]; simp [exec, execData, takeCommand, h, hr, cmdTake, hc, hw, hl]
    · left; refine ⟨.inr ⟨h, .inr rfl⟩, ?_⟩; rw [← responseWord_protocol, ← hrf]
      cases hl : s.level with
      | micro => rw [hmic hl]; simp [dispatch, h, hc, hd, admitsIdle]
      | command => rw [hcom hl]; simp [exec, execEnd, takeCommand, h, hw]
    · right; right; right; refine ⟨h, rfl, ?_⟩
      cases hl : s.level with
      | micro => rw [hmic hl]; simp [dispatch, h, hc, hd, admitsReady, acceptWord, cmdTake, hl]
      | command => rw [hcom hl]; simp [exec, execEnd, takeCommand, h, hr, cmdTake, hc, hw, hl]

end Sys2Proof.Machine
end

