-- ==== Sys2Proof/Laws/Driver.lean ====
section
/-! SUPPORT. What receiving does, said once: responses leave RSP in order, none is lost, and nothing else of the engine but the
host's record changes (10_state.md R32). -/

namespace Sys2Proof.Machine

theorem receive_received (n : Nat) (p : Session) :
    (receive n p).received = p.received ++ p.engine.RSP.take n := by
  induction n generalizing p with
  | zero => simp [receive]
  | succ n ih =>
    cases h : p.engine.RSP with
    | nil => simp [receive, hostSees, h]
    | cons r rs => simp [receive, hostSees, h, ih]

theorem receive_RSP (n : Nat) (p : Session) : (receive n p).engine.RSP = p.engine.RSP.drop n := by
  induction n generalizing p with
  | zero => simp [receive]
  | succ n ih =>
    cases h : p.engine.RSP with
    | nil => simp [receive, hostSees, h]
    | cons r rs => simp [receive, hostSees, h, ih]

theorem receive_CMD (n : Nat) (p : Session) : (receive n p).engine.CMD = p.engine.CMD := by
  induction n generalizing p with
  | zero => rfl
  | succ n ih => cases h : p.engine.RSP <;> simp [receive, hostSees, h, ih]

theorem receive_SEQ (n : Nat) (p : Session) : (receive n p).engine.SEQ = p.engine.SEQ := by
  induction n generalizing p with
  | zero => rfl
  | succ n ih => cases h : p.engine.RSP <;> simp [receive, hostSees, h, ih]

@[simp] theorem receiveAll_RSP (p : Session) : (receiveAll p).engine.RSP = [] := by simp [receiveAll, receive_RSP]

@[simp] theorem receiveAll_received (p : Session) : (receiveAll p).received = p.received ++ p.engine.RSP := by
  simp [receiveAll, receive_received]

@[simp] theorem receiveAll_CMD (p : Session) : (receiveAll p).engine.CMD = p.engine.CMD := receive_CMD _ p

@[simp] theorem receiveAll_SEQ (p : Session) : (receiveAll p).engine.SEQ = p.engine.SEQ := receive_SEQ _ p

/-- Rounds keep what was received and add to it. -/
theorem finish_received (n : Nat) (p : Session) : ∃ more, (finish n p).received = p.received ++ more := by
  induction n generalizing p with
  | zero => exact ⟨[], by simp [finish]⟩
  | succ n ih =>
    obtain ⟨more, h⟩ := ih (receiveAll { p with engine := settle commandSteps p.engine })
    exact ⟨_, by rw [finish, h, receiveAll_received, List.append_assoc]⟩

/-- After at least one round RSP is empty. -/
theorem finish_RSP (n : Nat) (p : Session) (h : n ≠ 0 ∨ p.engine.RSP = []) : (finish n p).engine.RSP = [] := by
  induction n generalizing p with
  | zero => simpa [finish] using h
  | succ n ih => exact ih _ (.inr (receiveAll_RSP _))

/-- Every response is received before the next word is sent. -/
theorem quiesce_RSP (p : Session) : (quiesce p).engine.RSP = [] := finish_RSP _ _ (.inl (Nat.succ_ne_zero _))

/-- The answer to a word is the first response that came after every earlier one was received. -/
theorem answerOf_sendAndRun (w : Word) (p : Session) :
    answerOf p (sendAndRun w p) = (settle commandSteps (hostSend w (quiesce p).engine)).RSP.head? := by
  simp [answerOf, sendAndRun, finish]

/-- A `.key` receives what quiescing receives and nothing more, and RSP stays empty. -/
theorem placeAndWait_received (bs : List Byte) (p : Session) : (placeAndWait bs p).received = (quiesce p).received := rfl

/-- Placing bytes changes KEY alone. -/
theorem placeKeyFrom_frame (a : Nat) (bs : List Byte) (s : State) :
    ∃ k, placeKeyFrom a bs s = { s with KEY := k } := by
  induction bs generalizing a s with
  | nil => exact ⟨s.KEY, rfl⟩
  | cons b bs ih =>
    unfold placeKeyFrom
    split
    · obtain ⟨k, h⟩ := ih (a + 1) (hostPlaceKey (BitVec.ofNat 8 a) b s)
      rw [h]
      unfold hostPlaceKey
      split
      · exact ⟨k, rfl⟩
      · exact ⟨k, rfl⟩
    · exact ⟨s.KEY, rfl⟩

end Sys2Proof.Machine
end

