-- ==== Sys2Proof/Laws/Memory.lean ====
section
/-! SUPPORT. The laws of the KEY space: read after write, and that a write keeps the canonical form. -/

namespace Sys2Proof.Machine

/-- A read after a write gives the byte written, and every other address reads as before. -/
theorem Memory.read_write (m : Memory) (k : Nat) (v : Byte) (x : Nat) :
    Memory.read (Memory.write m k v) x = if x = k then some v else Memory.read m x := by
  induction m with
  | nil => rfl
  | cons c m ih =>
    obtain ⟨a, b⟩ := c
    simp only [Memory.write]
    split_ifs with h₁ h₂ h₃ h₃ <;> simp_all [Memory.read]

theorem Memory.risingFrom_write {m : Memory} {lo k : Nat} (v : Byte) (hk : lo ≤ k)
    (h : Memory.risingFrom lo m = true) : Memory.risingFrom lo (Memory.write m k v) = true := by
  induction m generalizing lo with
  | nil => simp [Memory.write, Memory.risingFrom, hk]
  | cons c m ih =>
    obtain ⟨a, b⟩ := c
    simp only [Memory.risingFrom, Bool.and_eq_true, decide_eq_true_eq] at h
    simp only [Memory.write]
    split_ifs with h₁ h₂
    · simp [Memory.risingFrom, hk, h.2]; omega
    · subst h₂; simp [Memory.risingFrom, hk, h.2]
    · simp [Memory.risingFrom, h.1, ih (by omega) h.2]

theorem Memory.all_lt_write {m : Memory} {k : Nat} (v : Byte) (hk : k < 256)
    (h : (m.all fun c => decide (c.1 < 256)) = true) :
    ((Memory.write m k v).all fun c => decide (c.1 < 256)) = true := by
  induction m with
  | nil => simp [Memory.write, hk]
  | cons c m ih =>
    obtain ⟨a, b⟩ := c
    simp only [List.all_cons, Bool.and_eq_true, decide_eq_true_eq] at h
    simp only [Memory.write]
    split_ifs <;> simp [hk, h.1, h.2, ih h.2]

/-- A write at an 8-bit address keeps the canonical form. -/
theorem Memory.wf_write {m : Memory} {k : Nat} (v : Byte) (hk : k < 256) (h : Memory.wf m = true) :
    Memory.wf (Memory.write m k v) = true := by
  simp only [Memory.wf, Bool.and_eq_true] at h ⊢
  exact ⟨Memory.risingFrom_write v (Nat.zero_le k) h.1, Memory.all_lt_write v hk h.2⟩

theorem reset_key_wf : Memory.wf State.reset.KEY = true := by decide

/-- The key the host moves leave is in canonical form if the key before was. -/
theorem hostMove_key_wf (m : HostMove) {s : State} (h : Memory.wf s.KEY = true) :
    Memory.wf (hostMove m s).KEY = true := by
  cases m with
  | send w => simp only [hostMove, hostSend]; split <;> exact h
  | take => exact h
  | placeKey a b => simp only [hostMove, hostPlaceKey]; split; exacts [h, Memory.wf_write b a.isLt h]
  | reset => exact h

end Sys2Proof.Machine
end

