-- ==== Sys2Proof/Laws/PerInstr.lean ====
section
/-! SUPPORT. A fact per instruction: the encoder's bits fit the instruction's row of spec/opcode_table.json, width, match and
mask (30_encoding.md R93). -/

namespace Sys2Proof.Laws.RowMatch

/-- The code is as wide as the row says, and under the row's mask it is the row's match. -/
def Statement (i : Instr) : Prop :=
  (match encode i with
    | .cmd16 _ => 16
    | .uop4 _ => 4) = (tableRow i).1 ∧
  (encode i).bits &&& (tableRow i).2.2 = (tableRow i).2.1

theorem start (klen : Klen) : Statement (.start klen) := by
  have h := and_startMask_toNat (startWord klen)
  have := klen.isLt
  rw [startWord_toNat] at h
  refine ⟨rfl, ?_⟩
  simp only [encode, Code.bits, tableRow]
  rw [BitVec.toNat_and, startWord_toNat] at h
  rw [startWord_toNat]
  exact h.trans (by omega)

theorem data (din : Byte) : Statement (.data din) := by
  have h := and_dataMask_toNat (dataWord din)
  have := din.isLt
  refine ⟨rfl, ?_⟩
  simp only [encode, Code.bits, tableRow]
  rw [BitVec.toNat_and, dataWord_toNat] at h
  rw [dataWord_toNat]
  exact h.trans (by omega)

theorem endCall : Statement .endCall := ⟨rfl, rfl⟩
theorem dispatchIdle : Statement .dispatchIdle := ⟨rfl, rfl⟩
theorem chkkey : Statement .chkkey := ⟨rfl, rfl⟩
theorem sinit : Statement .sinit := ⟨rfl, rfl⟩
theorem kbeg : Statement .kbeg := ⟨rfl, rfl⟩
theorem kstep : Statement .kstep := ⟨rfl, rfl⟩
theorem prst : Statement .prst := ⟨rfl, rfl⟩
theorem dispatchReady : Statement .dispatchReady := ⟨rfl, rfl⟩
theorem pstep : Statement .pstep := ⟨rfl, rfl⟩
theorem xorb : Statement .xorb := ⟨rfl, rfl⟩
theorem endc : Statement .endc := ⟨rfl, rfl⟩

end Sys2Proof.Laws.RowMatch
end

