-- ==== Sys2Proof/Laws/Slots.lean ====
section
/-! SUPPORT. The laws of slots and `swap` (00_scope.md R11), and that phase 1 and every swap keep a permutation
(10_state.md R21). -/

namespace Sys2Proof.Machine

@[simp] theorem slot_tabulate (f : Byte → Byte) (a : Byte) : slot (Slots.tabulate f) a = f a := by
  simp [slot, Slots.tabulate]

@[simp] theorem slot_identity (a : Byte) : slot identity a = a := slot_tabulate _ a

theorem slot_setSlot (S : Slots) (a v x : Byte) : slot (setSlot S a v) x = if x = a then v else slot S x := by
  simp only [slot, setSlot, Vector.getElem_set, BitVec.toNat_inj, eq_comm]

/-- Two registers files with the same slots are the same. -/
theorem slots_ext {S T : Slots} (h : ∀ a : Byte, slot S a = slot T a) : S = T := by
  ext1 n hn
  simpa [slot, Nat.mod_eq_of_lt hn] using h (BitVec.ofNat 8 n)

/-- `swap` exchanges the slots at `a` and `b` and leaves the others. -/
theorem slot_swap (S : Slots) (a b x : Byte) :
    slot (swap S a b) x = if x = a then slot S b else if x = b then slot S a else slot S x := by
  simp only [swap, slot_setSlot]
  split_ifs with h₁ h₂ <;> simp_all

/-- A swap of a slot with itself changes nothing (R11). -/
theorem swap_self (S : Slots) (a : Byte) : swap S a a = S := by
  apply slots_ext
  intro x
  rw [slot_swap]
  split_ifs with h <;> simp_all

theorem isPerm_identity : IsPerm identity := fun v => ⟨v, by simp, fun b hb => by simpa using hb⟩

/-- The index a swap takes slot `x` from. -/
theorem slot_swap_index (S : Slots) (a b x : Byte) :
    slot (swap S a b) x = slot S (if x = a then b else if x = b then a else x) := by
  rw [slot_swap]; split_ifs <;> rfl

/-- Exchanging two indices is its own inverse. -/
theorem exchange_eq_iff (a b x c : Byte) :
    (if x = a then b else if x = b then a else x) = c ↔ x = if c = a then b else if c = b then a else c := by
  constructor <;> intro h <;> subst h <;> split_ifs <;> simp_all

/-- A swap moves the slot that holds a value to the other index of the exchange. -/
theorem isPerm_swap {S : Slots} (h : IsPerm S) (a b : Byte) : IsPerm (swap S a b) := by
  intro v
  obtain ⟨c, hc, huniq⟩ := h v
  refine ⟨if c = a then b else if c = b then a else c, ?_, fun x hx => ?_⟩
  · rw [slot_swap_index, (exchange_eq_iff a b _ c).2 rfl, hc]
  · rw [slot_swap_index] at hx
    exact (exchange_eq_iff a b x c).1 (huniq _ hx)

theorem isPerm_ksaRounds (kb : Nat → Byte) :
    ∀ (n i : Nat) (j : Byte) {S : Slots}, IsPerm S → IsPerm (ksaRounds kb n i j S)
  | 0, _, _, _, h => h
  | n + 1, i, _, _, h => isPerm_ksaRounds kb n (i + 1) _ (isPerm_swap h _ _)

/-- The result of phase 1 is a permutation (R136). -/
theorem isPerm_ksa (kb : Nat → Byte) : IsPerm (ksa kb) := isPerm_ksaRounds kb _ _ _ isPerm_identity

/-- Phase 1 uses only the key bytes of the iterations it runs (R136). -/
theorem ksaRounds_congr {kb kb' : Nat → Byte} :
    ∀ (n i : Nat) (j : Byte) (S : Slots), (∀ k, i ≤ k → k < i + n → kb k = kb' k) →
      ksaRounds kb n i j S = ksaRounds kb' n i j S
  | 0, _, _, _, _ => rfl
  | n + 1, i, _, _, h => by
    simp only [ksaRounds, h i (Nat.le_refl i) (by omega)]
    exact ksaRounds_congr n (i + 1) _ _ fun k h₁ h₂ => h k (by omega) (by omega)

theorem ksa_congr {kb kb' : Nat → Byte} (h : ∀ k < 256, kb k = kb' k) : ksa kb = ksa kb' :=
  ksaRounds_congr 256 0 0 identity fun k _ hk => h k (by omega)

/-- Phase 1 one iteration at a time: the permutation and j before iteration `n` of R112. -/
def ksaTrace (kb : Nat → Byte) : Nat → Slots × Byte
  | 0 => (identity, 0)
  | n + 1 =>
    let j := ksaIndex (ksaTrace kb n).1 (BitVec.ofNat 8 n) (ksaTrace kb n).2 (kb n)
    (swap (ksaTrace kb n).1 (BitVec.ofNat 8 n) j, j)

theorem ksaRounds_ksaTrace (kb : Nat → Byte) :
    ∀ n i, ksaRounds kb n i (ksaTrace kb i).2 (ksaTrace kb i).1 = (ksaTrace kb (i + n)).1
  | 0, _ => rfl
  | n + 1, i => by
    rw [ksaRounds, show i + (n + 1) = i + 1 + n by omega, ← ksaRounds_ksaTrace kb n (i + 1)]; rfl

/-- Phase 1 is its 256 iterations. -/
theorem ksa_eq_ksaTrace (kb : Nat → Byte) : ksa kb = (ksaTrace kb 256).1 := ksaRounds_ksaTrace kb 256 0

end Sys2Proof.Machine
end

