-- ==== Sys2Proof/Laws/StepCases.lean ====
section
/-! SUPPORT. Everything a step can do, said once: `step_case` inverts `step`, and invariants are proved by cases on it. -/

namespace Sys2Proof.Machine

/-- The next states of a step from `s`, each with the guard under which it is taken. -/
inductive StepCase (s : State) : State → Prop
  /-- Nothing is enabled: CMD is empty in a wait state, or RSP is full (R31, R32). -/
  | wait : StepCase s s
  /-- The word taken is refused (R110, R182, R183). -/
  | refuse (e : ErrCode) (w : Word) (rest : List Word) (hq : s.SEQ.isWait = true) (hc : s.CMD = w :: rest)
      (hr : rspFull s = false)
      (he : (e = .illegalCommand ∧ ∃ r, decodeCommand w = .error r) ∨
        (e = .protocol ∧ s.SEQ = .ready ∧ ∃ k, decodeCommand w = .ok (.start k)) ∨
        (e = .protocol ∧ s.SEQ = .idle ∧
          ((∃ d, decodeCommand w = .ok (.data d)) ∨ decodeCommand w = .ok .endCall))) :
      StepCase s { s with CMD := rest, CMDR := w, RSP := s.RSP ++ [responseWord (.err e)] }
  /-- DISPATCH accepts the word taken, at micro level (R110). -/
  | admitStart (k : Klen) (rest : List Word) (hl : s.level = .micro) (hq : s.SEQ = .idle)
      (hc : s.CMD = startWord k :: rest) : StepCase s { s with CMD := rest, CMDR := startWord k, SEQ := .chk }
  | admitData (d : Byte) (rest : List Word) (hl : s.level = .micro) (hq : s.SEQ = .ready)
      (hc : s.CMD = dataWord d :: rest) : StepCase s { s with CMD := rest, CMDR := dataWord d, SEQ := .pstep }
  | admitEnd (rest : List Word) (hl : s.level = .micro) (hq : s.SEQ = .ready) (hc : s.CMD = endWord :: rest) :
      StepCase s { s with CMD := rest, CMDR := endWord, SEQ := .endc }
  /-- A command that SEQ admits, at command level (R112 to R114). -/
  | start (k : Klen) (rest : List Word) (hl : s.level = .command) (hq : s.SEQ = .idle)
      (hc : s.CMD = startWord k :: rest) (hr : rspFull s = false) :
      StepCase s (startEffect k { s with CMD := rest, CMDR := startWord k })
  | data (d : Byte) (rest : List Word) (hl : s.level = .command) (hq : s.SEQ = .ready)
      (hc : s.CMD = dataWord d :: rest) (hr : rspFull s = false) :
      StepCase s (dataEffect d { s with CMD := rest, CMDR := dataWord d })
  | endCall (rest : List Word) (hl : s.level = .command) (hq : s.SEQ = .ready) (hc : s.CMD = endWord :: rest)
      (hr : rspFull s = false) : StepCase s (endEffect { s with CMD := rest, CMDR := endWord })
  /-- CHKKEY (R131). -/
  | chkFail (hq : s.SEQ = .chk) (hk : keyEmpty s.CMDR = true) (hr : rspFull s = false) :
      StepCase s (raiseError .invalidKey .idle s)
  | chkPass (hq : s.SEQ = .chk) (hk : keyEmpty s.CMDR = false) : StepCase s { s with SEQ := .init }
  /-- SINIT, KBEG, KSTEP (R132 to R134). -/
  | sinit (hq : s.SEQ = .init) : StepCase s { s with S := identity, SEQ := .kbeg }
  | kbeg (hq : s.SEQ = .kbeg) : StepCase s { s with J := 0, I := 0, SEQ := .kstep }
  | kstep (hq : s.SEQ = .kstep) :
      StepCase s { s with
        J := ksaIndex s.S s.I s.J (kstepKeyByte s)
        S := swap s.S s.I (ksaIndex s.S s.I s.J (kstepKeyByte s))
        I := if sweepDone s.I then 0 else s.I + 1
        SEQ := if sweepDone s.I then .prst else .kstep }
  /-- PRST, PSTEP (R151, R152), XORB, ENDC (R170, R171). -/
  | prst (hq : s.SEQ = .prst) (hr : rspFull s = false) :
      StepCase s { rspEmit .ack s with I := 0, J := 0, SEQ := .ready }
  | pstep (hq : s.SEQ = .pstep) : StepCase s { generate s with SEQ := .xorb }
  | xorb (hq : s.SEQ = .xorb) (hr : rspFull s = false) :
      StepCase s { rspEmit (.byte (dinOf s.CMDR ^^^ s.Z)) s with SEQ := .ready }
  | endc (hq : s.SEQ = .endc) (hr : rspFull s = false) :
      StepCase s { rspEmit .ack (discardCall s) with SEQ := .idle }

/-- A refusal is a wait or the case `refuse`. -/
theorem StepCase.of_refuseWord {s : State} {e : ErrCode} {w : Word} {rest : List Word} (hq : s.SEQ.isWait = true)
    (hc : s.CMD = w :: rest)
    (he : (e = .illegalCommand ∧ ∃ r, decodeCommand w = .error r) ∨
      (e = .protocol ∧ s.SEQ = .ready ∧ ∃ k, decodeCommand w = .ok (.start k)) ∨
      (e = .protocol ∧ s.SEQ = .idle ∧
        ((∃ d, decodeCommand w = .ok (.data d)) ∨ decodeCommand w = .ok .endCall))) :
    StepCase s (refuseWord e w s) := by
  rcases refuseWord_cases e w s with ⟨_, h⟩ | ⟨hr, h⟩ <;> rw [h]
  · exact .wait
  · have h' := StepCase.refuse e w rest hq hc hr he
    rwa [show s.CMD.tail = rest by rw [hc]; rfl]

theorem StepCase.of_dispatchIdle {s : State} (hl : s.level = .micro) (hq : s.SEQ = .idle) :
    StepCase s (dispatch .idle admitsIdle s) := by
  unfold dispatch
  rw [if_pos hq]
  cases hc : s.CMD with
  | nil => exact .wait
  | cons w rest =>
    have hw : s.SEQ.isWait = true := by rw [hq]; rfl
    cases hd : decodeCommand w with
    | error r => simp only [hd]; exact .of_refuseWord hw hc (.inl ⟨rfl, r, hd⟩)
    | ok i =>
      rcases decodeCommand_ok hd with ⟨k, rfl, rfl⟩ | ⟨d, rfl, rfl⟩ | ⟨rfl, rfl⟩
      · simpa [admitsIdle, acceptWord, cmdTake, hc] using StepCase.admitStart k rest hl hq hc
      · simp only [hd, admitsIdle]; exact .of_refuseWord hw hc (.inr (.inr ⟨rfl, hq, .inl ⟨d, hd⟩⟩))
      · simp only [hd, admitsIdle]; exact .of_refuseWord hw hc (.inr (.inr ⟨rfl, hq, .inr hd⟩))

theorem StepCase.of_dispatchReady {s : State} (hl : s.level = .micro) (hq : s.SEQ = .ready) :
    StepCase s (dispatch .ready admitsReady s) := by
  unfold dispatch
  rw [if_pos hq]
  cases hc : s.CMD with
  | nil => exact .wait
  | cons w rest =>
    have hw : s.SEQ.isWait = true := by rw [hq]; rfl
    cases hd : decodeCommand w with
    | error r => simp only [hd]; exact .of_refuseWord hw hc (.inl ⟨rfl, r, hd⟩)
    | ok i =>
      rcases decodeCommand_ok hd with ⟨k, rfl, rfl⟩ | ⟨d, rfl, rfl⟩ | ⟨rfl, rfl⟩
      · simp only [hd, admitsReady]; exact .of_refuseWord hw hc (.inr (.inl ⟨rfl, hq, k, hd⟩))
      · simpa [admitsReady, acceptWord, cmdTake, hc] using StepCase.admitData d rest hl hq hc
      · simpa [admitsReady, acceptWord, cmdTake, hc] using StepCase.admitEnd rest hl hq hc

/-- A command taken in a wait state, from what `takeCommand` answers. -/
theorem StepCase.of_takeCommand {s : State} {a r : SeqCode} {w : Word} {rest : List Word} {eff : State → State}
    (hq : s.SEQ.isWait = true) (hc : s.CMD = w :: rest)
    (hp : s.SEQ = r → (s.SEQ = .ready ∧ ∃ k, decodeCommand w = .ok (.start k)) ∨
      (s.SEQ = .idle ∧ ((∃ d, decodeCommand w = .ok (.data d)) ∨ decodeCommand w = .ok .endCall)))
    (heff : s.SEQ = a → rspFull s = false → StepCase s (eff { s with CMD := rest, CMDR := w })) :
    StepCase s (takeCommand a r w eff s) := by
  rcases takeCommand_cases a r w eff s with h | ⟨hs, h⟩ | ⟨hs, hr, h⟩ <;> rw [h]
  · exact .wait
  · rcases hp hs with h' | h'
    · exact .of_refuseWord hq hc (.inr (.inl ⟨rfl, h'⟩))
    · exact .of_refuseWord hq hc (.inr (.inr ⟨rfl, h'⟩))
  · simpa [cmdTake, hc] using heff hs hr

/-- The micro-operation SEQ selects, at any SEQ where it is a step. -/
theorem StepCase.of_uop {s : State} (h : s.level = .micro ∨ s.SEQ.isWait = false) {t : State}
    (ht : exec s.SEQ.uop s = .next t) : StepCase s t := by
  have hidle : ∀ q : SeqCode, s.SEQ = q → q.isWait = true → s.level = .micro := by
    intro q hq hw; rcases h with h | h
    · exact h
    · rw [hq, hw] at h; cases h
  cases hq : s.SEQ <;> rw [hq] at ht <;> simp only [SeqCode.uop, exec] at ht <;> injection ht with ht <;> subst ht
  case idle => exact .of_dispatchIdle (hidle _ hq rfl) hq
  case ready => exact .of_dispatchReady (hidle _ hq rfl) hq
  case chk =>
    split_ifs with hk hr
    · exact .wait
    · exact .chkFail hq hk (by simpa using hr)
    · exact .chkPass hq (by simpa using hk)
  case init => exact .sinit hq
  case kbeg => exact .kbeg hq
  case kstep => exact .kstep hq
  case prst =>
    split_ifs with hr
    · exact .wait
    · exact .prst hq (by simpa using hr)
  case pstep => exact .pstep hq
  case xorb =>
    split_ifs with hr
    · exact .wait
    · exact .xorb hq (by simpa using hr)
  case endc =>
    split_ifs with hr
    · exact .wait
    · exact .endc hq (by simpa using hr)

/-- Everything a step can do. -/
theorem step_case {s t : State} (ht : step s = .next t) : StepCase s t := by
  cases hl : s.level with
  | micro => exact .of_uop (.inl hl) (step_micro hl ▸ ht)
  | command =>
    cases hw : s.SEQ.isWait with
    | false => exact .of_uop (.inr hw) (step_command_busy hl hw ▸ ht)
    | true =>
      cases hc : s.CMD with
      | nil =>
        simp only [step, fetch, hl, hw, hc] at ht
        injection ht with ht; subst ht; exact .wait
      | cons w rest =>
        cases hd : decodeCommand w with
        | error r =>
          rw [step_command_illegal hl hw hc hd] at ht
          injection ht with ht; subst ht
          exact .of_refuseWord hw hc (.inl ⟨rfl, r, hd⟩)
        | ok i =>
          rw [step_command hl hw hc hd] at ht
          rcases decodeCommand_ok hd with ⟨k, rfl, rfl⟩ | ⟨d, rfl, rfl⟩ | ⟨rfl, rfl⟩ <;>
            simp only [exec] at ht <;> injection ht with ht <;> subst ht
          · exact .of_takeCommand hw hc (fun h => .inl ⟨h, k, hd⟩) fun hq hr => .start k rest hl hq hc hr
          · exact .of_takeCommand hw hc (fun h => .inr ⟨h, .inl ⟨d, hd⟩⟩) fun hq hr => .data d rest hl hq hc hr
          · exact .of_takeCommand hw hc (fun h => .inr ⟨h, .inr hd⟩) fun hq hr => .endCall rest hl hq hc hr

end Sys2Proof.Machine
end

