-- ==== Sys2Proof/Laws/Sweep.lean ====
section
/-! SUPPORT. The key-schedule sweep: the engine's KSTEP run from an iteration to the end of the sweep is `ksaRounds` from that
iteration (41_ksa_unit.md R134, R135). -/

namespace Sys2Proof.Machine

/-- One KSTEP. -/
theorem applyEvent_kstep {s : State} (h : s.SEQ = .kstep) : applyEvent .engine s = { s with
        J := ksaIndex s.S s.I s.J (kstepKeyByte s)
        S := swap s.S s.I (ksaIndex s.S s.I s.J (kstepKeyByte s))
        I := if sweepDone s.I then 0 else s.I + 1
        SEQ := if sweepDone s.I then .prst else .kstep } := by
  apply applyEvent_engine; rw [step_busy (by rw [h]; rfl), h]; rfl

theorem sweepDone_ofNat {i : Nat} (h : i < 256) : sweepDone (BitVec.ofNat 8 i) = decide (i = 255) := by
  simp only [sweepDone, ← BitVec.toNat_inj, BitVec.toNat_ofNat]; congr 1; simp; omega

/-- From iteration `i` in KSTEP to the end of the sweep. -/
theorem runSteps_sweep (n : Nat) : ∀ (i : Nat) (s : State), s.SEQ = .kstep → s.I = BitVec.ofNat 8 i → i + (n + 1) = 256 → ∃ j,
    runSteps (n+1) s = { s with
      S := ksaRounds (fun k => keyRead s (keyAddr (klenOf s.CMDR) (BitVec.ofNat 8 k))) (n+1) i s.J s.S
      I := 0, J := j, SEQ := .prst } := by
  induction n with
  | zero =>
    intro i s hq hI hi
    have : i = 255 := by omega
    subst this
    refine ⟨ksaIndex s.S (BitVec.ofNat 8 255) s.J (kstepKeyByte s), ?_⟩
    rw [runSteps, applyEvent_kstep hq, runSteps, hI, sweepDone_ofNat (by omega)]
    simp only [decide_true, if_true, ksaRounds, kstepKeyByte, hI]
  | succ n ih =>
    intro i s hq hI hi
    rw [runSteps, applyEvent_kstep hq, hI, sweepDone_ofNat (by omega)]
    have h0 : decide (i = 255) = false := by simp; omega
    simp only [h0, Bool.false_eq_true, if_false]
    obtain ⟨j, hj⟩ := ih (i + 1) { s with
        J := ksaIndex s.S (BitVec.ofNat 8 i) s.J (kstepKeyByte s)
        S := swap s.S (BitVec.ofNat 8 i) (ksaIndex s.S (BitVec.ofNat 8 i) s.J (kstepKeyByte s))
        I := BitVec.ofNat 8 i + 1
        SEQ := .kstep } rfl (by simp [BitVec.ofNat_add]) (by omega)
    refine ⟨j, hj.trans ?_⟩
    rw [ksaRounds]
    simp only [kstepKeyByte, hI]
    rfl

end Sys2Proof.Machine
end

