-- ==== Sys2Proof/Tests/Slice0.lean ====
section
/-! SUPPORT. Tests. Expected values come from spec/95_test_vectors.md (the vector is named) or from the word layouts of
30_encoding.md. A theorem `witness_X` shows data that meet the hypotheses of `Obligations.X`, a clause at a time. -/

namespace Sys2Proof.Tests

open Sys2Proof Sys2Proof.Machine

/-! ### Small states -/

/-- KEY = 4B 65 79, S the identity, I = J = Z = 0, nothing in the channels, micro level. -/
def base (q : SeqCode) : State where
  S := identity
  I := 0
  J := 0
  SEQ := q
  CMDR := 0
  Z := 0
  CMD := []
  RSP := []
  KEY := [(0, 0x4B), (1, 0x65), (2, 0x79)]
  params := { depth := .unbounded, obsPort := false }
  level := .micro
  sent := []
  draw := 0

/-- `base` with words sent, all of them still in CMD. -/
def having (q : SeqCode) (ws : List Word) : State := { base q with CMD := ws, sent := ws }

/-- `having` at command level. -/
def commanded (q : SeqCode) (ws : List Word) : State := { having q ws with level := .command }

/-- `base` with a full RSP of depth 1. -/
def full (q : SeqCode) : State := { base q with RSP := [0x1000], sent := [0x3000], params := { depth := .onePlus 0, obsPort := false } }

/-- The state an instruction leaves. -/
def after (i : Instr) (s : State) : State :=
  match exec i s with
  | .next t => t
  | .fault _ => s
  | .refused _ => s

/-! ### WellFormed: one ill-formed term for each check -/

theorem test_wf_start : (AsmLine.start (.lit 4096)).wf none = false ∧ (AsmLine.start (.lit 4095)).wf none = true := by decide
theorem test_wf_start_keylen : (AsmLine.start .keylen).wf none = false ∧ (AsmLine.start .keylen).wf (some 3) = true := by decide
theorem test_wf_data : (AsmLine.data (.lit 256)).wf none = false ∧ (AsmLine.data (.lit 255)).wf none = true := by decide
theorem test_wf_word : (AsmLine.word (.lit 65536)).wf none = false ∧ (AsmLine.word (.lit 65535)).wf none = true := by decide
theorem test_wf_key : (AsmLine.key [0, 256]).wf none = false ∧ (AsmLine.key [0, 255]).wf none = true := by decide
theorem test_wf_datas : (AsmLine.datas [256]).wf none = false ∧ (AsmLine.datas []).wf none = true := by decide
theorem test_wf_transform :
    (AsmLine.transform [1]).wf none = false ∧ (AsmLine.transform [1]).wf (some 4096) = false ∧
    (AsmLine.transform [256]).wf (some 3) = false ∧ (AsmLine.transform [1]).wf (some 3) = true := by decide
/-- R87: an ACK with nonzero VAL, a nonzero `[11:8]`, ERR codes 0 and 4, and the KIND values 0000 and 0011. -/
theorem test_wf_response :
    ([0x1001#16, 0x2100, 0xF000, 0xF004, 0x0000, 0x3000].any isResponseWord) = false ∧
    ([0x1000#16, 0x2000, 0x20FF, 0xF001, 0xF002, 0xF003].all isResponseWord) = true := by decide +kernel
/-- A key list out of order, a repeated address, and an address of more than 8 bits. -/
theorem test_wf_memory :
    Memory.wf [(1, 0), (0, 0)] = false ∧ Memory.wf [(1, 0), (1, 0)] = false ∧ Memory.wf [(256, 0)] = false ∧
    Memory.wf [(0, 5), (255, 0)] = true := by decide +kernel

/-! ### Decoding: words written out bit by bit (30_encoding.md R81 to R84, R93) -/

theorem test_decode_start : decode (.cmd16 0b0001_0000_0000_0011) = .ok (.start 3) := by decide
theorem test_decode_data : decode (.cmd16 0b0010_0000_0101_0000) = .ok (.data 0x50) := by decide
theorem test_decode_end : decode (.cmd16 0b0011_0000_0000_0000) = .ok .endCall := by decide
theorem test_decode_dispatchIdle : decode (.uop4 0b0000) = .ok .dispatchIdle := by decide
theorem test_decode_chkkey : decode (.uop4 0b0001) = .ok .chkkey := by decide
theorem test_decode_sinit : decode (.uop4 0b0010) = .ok .sinit := by decide
theorem test_decode_kbeg : decode (.uop4 0b0011) = .ok .kbeg := by decide
theorem test_decode_kstep : decode (.uop4 0b0100) = .ok .kstep := by decide
theorem test_decode_prst : decode (.uop4 0b0101) = .ok .prst := by decide
theorem test_decode_dispatchReady : decode (.uop4 0b0110) = .ok .dispatchReady := by decide
theorem test_decode_pstep : decode (.uop4 0b0111) = .ok .pstep := by decide
theorem test_decode_xorb : decode (.uop4 0b1000) = .ok .xorb := by decide
theorem test_decode_endc : decode (.uop4 0b1001) = .ok .endc := by decide
theorem test_decode_unused : decode (.uop4 0b1010) = .error (.unusedSeqCode 0b1010) ∧
    decode (.uop4 0b1111) = .error (.unusedSeqCode 0b1111) := by decide
/-- E1 to E8. -/
theorem test_decode_legal :
    decodeCommand 0x1000 = .ok (.start 0) ∧ decodeCommand 0x1100 = .ok (.start 256) ∧
    decodeCommand 0x1FFF = .ok (.start 4095) ∧ decodeCommand 0x2000 = .ok (.data 0) ∧
    decodeCommand 0x20FF = .ok (.data 0xFF) := by decide
/-- E9 to E15. -/
theorem test_decode_illegal :
    decodeCommand 0x0000 = .error (.reservedOpcode 0) ∧ decodeCommand 0x2100 = .error .dataFieldNotZero ∧
    decodeCommand 0x2F41 = .error .dataFieldNotZero ∧ decodeCommand 0x3001 = .error .endFieldNotZero ∧
    decodeCommand 0x4000 = .error (.reservedOpcode 4) ∧ decodeCommand 0xFFFF = .error (.reservedOpcode 15) ∧
    decodeCommand 0xF001 = .error (.reservedOpcode 15) := by decide
/-- The words of 30_encoding.md R81 to R83 and of R87. -/
theorem test_encode :
    encode (.start 11) = .cmd16 0x100B ∧ encode (.data 0x50) = .cmd16 0x2050 ∧ encode .endCall = .cmd16 0x3000 ∧
    responseWord .ack = 0x1000 ∧ responseWord (.byte 0xBB) = 0x20BB ∧ responseWord (.err .invalidKey) = 0xF001 ∧
    responseWord (.err .protocol) = 0xF002 ∧ responseWord (.err .illegalCommand) = 0xF003 := by decide
/-- The rows of spec/opcode_table.json, as the host numbers them. -/
theorem test_decodeTableWord :
    decodeTableWord 16 0x1003 = some (.start 3) ∧ decodeTableWord 8 4 = some .kstep ∧ decodeTableWord 8 10 = none ∧
    decodeTableWord 16 0x2100 = none := by decide

/-! ### One step, at most two a row -/

/-- G3 and G5. -/
theorem test_dispatchIdle_refuses :
    (after .dispatchIdle (having .idle [0x2041])).RSP = [0xF002] ∧
    (after .dispatchIdle (having .idle [0x0000])).RSP = [0xF003] := by decide
/-- G1, first micro-operation: CMDR holds the word, SEQ is CHK. -/
theorem test_dispatchIdle_admits :
    (after .dispatchIdle (having .idle [0x1003, 0x3000])).CMDR = 0x1003 ∧
    (after .dispatchIdle (having .idle [0x1003, 0x3000])).CMD = [0x3000] ∧
    (after .dispatchIdle (having .idle [0x1003, 0x3000])).SEQ = .chk := by decide
/-- G7 and G8. -/
theorem test_dispatchReady_refuses :
    (after .dispatchReady (having .ready [0x1000])).RSP = [0xF002] ∧
    (after .dispatchReady (having .ready [0x2100])).RSP = [0xF003] := by decide
theorem test_dispatchReady_admits :
    (after .dispatchReady (having .ready [0x2050])).SEQ = .pstep ∧
    (after .dispatchReady (having .ready [0x3000])).SEQ = .endc := by decide
/-- The example of R131. -/
theorem test_chkkey :
    (after .chkkey { base .chk with CMDR := 0x1000 }).RSP = [0xF001] ∧
    (after .chkkey { base .chk with CMDR := 0x1000 }).SEQ = .idle ∧
    (after .chkkey { base .chk with CMDR := 0x1003 }).RSP = [] ∧
    (after .chkkey { base .chk with CMDR := 0x1003 }).SEQ = .init := by decide
/-- The example and corner case of R132. -/
theorem test_sinit :
    slot (after .sinit { base .init with S := swap identity 0 0x4B }).S 0x4B = 0x4B ∧
    slot (after .sinit (base .init)).S 0 = 0 ∧ slot (after .sinit (base .init)).S 255 = 0xFF := by decide +kernel
/-- The example of R133. -/
theorem test_kbeg :
    (after .kbeg { base .kbeg with I := 7, J := 9 }).I = 0 ∧ (after .kbeg { base .kbeg with I := 7, J := 9 }).J = 0 := by
  decide
/-- V10, KSTEP number 2: I = 01, kb = 65, J = 4B to B1, slots 01 and B1 exchange. -/
theorem test_kstep_V10 :
    let t := after .kstep { base .kstep with CMDR := 0x1003, S := swap identity 0 0x4B, I := 1, J := 0x4B }
    t.J = 0xB1 ∧ slot t.S 0x01 = 0xB1 ∧ slot t.S 0xB1 = 0x01 ∧ t.I = 2 ∧ t.SEQ = .kstep := by decide +kernel
/-- The last KSTEP: I wraps out of 255 and SEQ is PRST (R134). -/
theorem test_kstep_wraps :
    (after .kstep { base .kstep with CMDR := 0x1003, I := 255 }).I = 0 ∧
    (after .kstep { base .kstep with CMDR := 0x1003, I := 255 }).SEQ = .prst := by decide
/-- The example of R151. -/
theorem test_prst :
    let t := after .prst { base .prst with J := 0x36 }
    t.I = 0 ∧ t.J = 0 ∧ t.RSP = [0x1000] ∧ t.SEQ = .ready := by decide
/-- The example of R152 (V20, k = 0), on a permutation that has the slots it reads: S[01] = 33, S[33] = 4E, S[81] = EB. -/
theorem test_pstep_V20 :
    let S := swap (swap (swap identity 0x01 0x33) 0x33 0x4E) 0x81 0xEB
    let t := after .pstep { base .pstep with S := S }
    t.I = 0x01 ∧ t.J = 0x33 ∧ slot t.S 0x01 = 0x4E ∧ slot t.S 0x33 = 0x33 ∧ t.Z = 0xEB ∧ t.SEQ = .xorb := by decide +kernel
/-- Corner case 1 of R152: J = I, the swap changes nothing and Z is slot 2 * S[I]. V21 has the sum wrap at S[16] = CC. -/
theorem test_pstep_V21 :
    let S := swap (swap identity 0x16 0xCC) 0x98 0x17
    let t := after .pstep { base .pstep with S := S, I := 0x15, J := 0x4A }
    t.I = 0x16 ∧ t.J = 0x16 ∧ slot t.S 0x16 = 0xCC ∧ t.Z = 0x17 := by decide +kernel
/-- Q1 and Q3. -/
theorem test_xorb :
    (after .xorb { base .xorb with CMDR := 0x2050, Z := 0xEB }).RSP = [0x20BB] ∧
    (after .xorb { base .xorb with CMDR := 0x20FF, Z := 0xEB }).RSP = [0x2014] := by decide
/-- The example of R171; CMDR keeps the END word. -/
theorem test_endc :
    let t := after .endc { base .endc with CMDR := 0x3000 }
    t.RSP = [0x1000] ∧ t.SEQ = .idle ∧ t.CMDR = 0x3000 := by decide
/-- G1: START 3 from IDLE is acknowledged; and rows 1 to 6 of V10, the first iterations of its sweep. -/
theorem test_start_V10 :
    (after (.start 3) (commanded .idle [0x1003])).RSP = [0x1000] ∧
    (after (.start 3) (commanded .idle [0x1003])).SEQ = .ready ∧
    (let S := ksaRounds (fun i => keyRead (base .idle) (keyAddr 3 (BitVec.ofNat 8 i))) 6 0 0 identity;
      [0, 1, 2, 3, 4, 5, 0x4B, 0xB1, 0x2C].map (slot S) = [0x4B, 0xB1, 0x2C, 0x7A, 0xE3, 0x61, 0x00, 0x01, 0x02]) := by
  decide +kernel
/-- G2 and G6. -/
theorem test_start_refused :
    (after (.start 0) (commanded .idle [0x1000])).RSP = [0xF001] ∧
    (after (.start 3) (commanded .ready [0x1003])).RSP = [0xF002] := by decide
/-- R113: an accepted DATA, on the slots of V20 k = 0; G3 again, as a command. -/
theorem test_data :
    let S := swap (swap (swap identity 0x01 0x33) 0x33 0x4E) 0x81 0xEB
    (after (.data 0x50) { commanded .ready [0x2050] with S := S }).RSP = [0x20BB] ∧
    (after (.data 0x41) (commanded .idle [0x2041])).RSP = [0xF002] := by decide +kernel
/-- G10 and G4. -/
theorem test_end :
    (after .endCall (commanded .ready [0x3000])).RSP = [0x1000] ∧
    (after .endCall (commanded .ready [0x3000])).SEQ = .idle ∧
    (after .endCall (commanded .idle [0x3000])).RSP = [0xF002] := by decide
/-- A table word put in place is what the next step runs, from State.reset: KSTEP's code, and START 0. -/
theorem test_withFetchWord :
    (State.reset.withFetchWord 8 4).SEQ = .kstep ∧
    (applyEvent .engine (State.reset.withFetchWord 16 0x1000)).RSP = [0xF001] := by decide
/-- P4's first lines, text to words: `.key`, START, DATA in hexadecimal, a comment, END. -/
theorem test_assemble :
    (Asm.assembleText ".key \"Wiki\"\nSTART 0 ; empty\nDATA 0x70\nEND\nSTART KEYLEN".toList).map
      (fun is => is.flatMap Asm.itemWords) = some [0x1000, 0x2070, 0x3000, 0x1004] := by decide +kernel
/-- P4's first five lines at CHANNEL_DEPTH 1, and a TRANSFORM after an ERR: the host receives F001 F002 F002, then F001, and the
rest of that call is not sent (R92). -/
theorem test_driver_errors :
    (playAll [.placeKey [0x57], .send 0x1000, .send 0x2070, .send 0x3000, .call 0x1000 [0x2070, 0x3000]]
      { engine := launch { depth := .onePlus 0, obsPort := false } .micro, received := [] }).received =
      [0xF001, 0xF002, 0xF002, 0xF001] := by decide +kernel
/-- A TRANSFORM played while START 3 is still in CMD: the ACK is START 3's, the TRANSFORM's START 5 gets F002, and the rest is not
sent (R92). -/
theorem test_driver_older_word :
    (play (.call 0x1005 [0x3000]) { engine := commanded .idle [0x1003], received := [] }).received = [0x1000, 0xF002] := by
  decide +kernel
/-- A `.key` of five bytes played while START 3 is still in CMD: the ACK comes first, then every byte is placed (R54, R91). -/
theorem test_driver_key_waits :
    let q := play (.placeKey [1, 2, 3, 4, 5]) { engine := commanded .idle [0x1003], received := [] }
    q.received = [0x1000] ∧ (List.range 5).map (fun a => keyRead q.engine (BitVec.ofNat 8 a)) = [1, 2, 3, 4, 5] := by
  decide +kernel
/-- KEYLEN is a number of DATA, not an item of a byte list (log entry 15). -/
theorem test_keylen_places :
    (Asm.assembleText ".key 1 2\nDATA KEYLEN".toList).isSome ∧ Asm.assembleText ".key 1 2\nDATAS KEYLEN".toList = none := by
  decide +kernel
/-- R54: while START 3 is not answered address 2 keeps its byte and address 5 takes a new one; once the response is received
address 2 takes one too. -/
theorem test_placeKey :
    let s := having .idle [0x1003]
    keyRead (hostPlaceKey 2 0xAA s) 2 = 0x79 ∧ keyRead (hostPlaceKey 5 0xAA s) 5 = 0xAA ∧
    keyRead (hostPlaceKey 2 0xAA (hostTake { s with CMD := [], RSP := [0x1000] })) 2 = 0xAA := by decide +kernel

/-! ### Witnesses: data that meet the hypotheses of each obligation, each clause at a boundary value -/

theorem witness_EncodeOfDecodeIsIdentity :
    decode (.cmd16 0x1FFF) = .ok (.start 4095) ∧ decode (.cmd16 0x20FF) = .ok (.data 0xFF) ∧
    decode (.uop4 9) = .ok .endc := by decide

theorem witness_OpcodeMapRows :
    0x1FFF#16 &&& 0xF000#16 = 0x1000#16 ∧ 0x20FF#16 &&& 0xFF00#16 = 0x2000#16 ∧ 0x3000#16 &&& 0xFFFF#16 = 0x3000#16 ∧
    (0x3001#16 &&& 0xF000#16 ≠ 0x1000#16 ∧ 0x3001#16 &&& 0xFF00#16 ≠ 0x2000#16 ∧ 0x3001#16 &&& 0xFFFF#16 ≠ 0x3000#16) ∧
    decodeUop 9 = .ok .endc := by decide

theorem witness_IllegalWordKinds :
    4 ≤ (0x4000#16 : Word).toNat / 4096 ∧ (0x0FFF#16 : Word).toNat / 4096 = 0 ∧
    ((0x2100#16 : Word).toNat / 4096 = 2 ∧ (0x2100#16 : Word).toNat / 256 % 16 ≠ 0) ∧
    ((0x3001#16 : Word).toNat / 4096 = 3 ∧ (0x3001#16 : Word).toNat % 4096 ≠ 0) := by decide

theorem witness_StepRunsDecodedInstruction :
    ((base .kstep).level = .micro ∧ decodeUop (base .kstep).SEQ.bits = .ok .kstep) ∧
    ((commanded .pstep []).SEQ.isWait = false ∧ decodeUop (commanded .pstep []).SEQ.bits = .ok .pstep) ∧
    ((commanded .idle [0x1003]).level = .command ∧ (commanded .idle [0x1003]).SEQ.isWait = true ∧
      (commanded .idle [0x1003]).CMD = [0x1003] ∧ decodeCommand 0x1003 = .ok (.start 3)) ∧
    decodeTableWord 16 0x3000 = some .endCall ∧ decodeTableWord 8 9 = some .endc := by decide

theorem witness_EmptyCommandChannelWaits :
    (base .idle).SEQ.isWait = true ∧ (base .idle).CMD = [] ∧ (base .ready).SEQ.isWait = true ∧ (base .ready).CMD = [] := by
  decide

theorem witness_DispatchEffect :
    (base .idle).CMD = [] ∧ (base .idle).SEQ = .idle ∧ (base .ready).CMD = [] ∧ (base .ready).SEQ = .ready ∧
    ((having .idle [0x1000]).SEQ = .idle ∧ (having .idle [0x1000]).CMD = [0x1000] ∧
      decodeCommand 0x1000 = .ok (.start 0) ∧ decodeCommand 0x20FF = .ok (.data 0xFF) ∧
      decodeCommand 0x3000 = .ok .endCall ∧ decodeCommand 0x3001 = .error .endFieldNotZero ∧
      rspFull (having .idle [0x1000]) = false) ∧
    ((having .ready [0x2000]).SEQ = .ready ∧ (having .ready [0x2000]).CMD = [0x2000] ∧
      decodeCommand 0x2000 = .ok (.data 0) ∧ rspFull (having .ready [0x2000]) = false) := by decide

theorem witness_ChkkeyEffect :
    ({ base .chk with CMDR := 0x1001 } : State).CMDR &&& 0x0FFF#16 ≠ 0 ∧
    ({ base .chk with CMDR := 0x1000 } : State).CMDR &&& 0x0FFF#16 = 0 ∧ rspFull (base .chk) = false := by decide

theorem witness_KstepEffect :
    (({ base .kstep with CMDR := 0x1001, I := 255 } : State).CMDR &&& 0x0FFF#16).toNat ≠ 0 ∧
    (({ base .kstep with CMDR := 0x1FFF, I := 254 } : State).CMDR &&& 0x0FFF#16).toNat ≠ 0 := by decide

theorem witness_SweepRunsKstep256Times : (base .kstep).SEQ = .kstep ∧ (base .kstep).I = 0 := by decide

theorem witness_KeyAddressInsideKey : (1 : Nat) ≠ 0 ∧ (256 : Nat) ≠ 0 ∧ (4095 : Nat) ≠ 0 := by decide

theorem witness_PrstEffect : rspFull (base .prst) = false := by decide

theorem witness_XorbEffect : rspFull (base .xorb) = false := by decide

theorem witness_EndcEffect : rspFull (base .endc) = false := by decide

theorem witness_FullResponseChannelWaits :
    rspFull (full .prst) = true ∧ (full .chk).CMDR &&& 0x0FFF#16 = 0 ∧
    (rspFull { full .idle with CMD := [0x3000] } = true ∧ ∀ k, decodeCommand 0x3000 ≠ .ok (.start k)) ∧
    (rspFull { full .ready with CMD := [0x1000] } = true ∧ (∀ d, decodeCommand 0x1000 ≠ .ok (.data d)) ∧
      decodeCommand 0x1000 ≠ .ok .endCall) ∧
    ∃ t, step (full .xorb) = .next t :=
  ⟨by decide, by decide, ⟨by decide, fun k h => by rw [show decodeCommand 0x3000 = .ok .endCall by decide] at h; cases h⟩,
    ⟨by decide, ⟨(fun d h => by rw [show decodeCommand 0x1000 = .ok (.start 0) by decide] at h; cases h), by decide⟩⟩,
    step_answers _⟩

theorem witness_StartEffect :
    ((commanded .idle [0x1000]).SEQ = .idle ∧ rspFull (commanded .idle [0x1000]) = false) ∧
    ((1 : Klen) ≠ 0 ∧ (4095 : Klen) ≠ 0) ∧
    ((commanded .ready [0x1000]).SEQ = .ready ∧ rspFull (commanded .ready [0x1000]) = false) := by decide

theorem witness_DataEffect :
    ((commanded .ready [0x20FF]).SEQ = .ready ∧ rspFull (commanded .ready [0x20FF]) = false) ∧
    ((commanded .idle [0x2000]).SEQ = .idle ∧ rspFull (commanded .idle [0x2000]) = false) := by decide

theorem witness_EndEffect :
    ((commanded .ready [0x3000]).SEQ = .ready ∧ rspFull (commanded .ready [0x3000]) = false) ∧
    ((commanded .idle [0x3000]).SEQ = .idle ∧ rspFull (commanded .idle [0x3000]) = false) := by decide

theorem witness_NoCommandTakenWhileOneRuns :
    (having .chk [0x3000]).SEQ.isWait = false ∧ (base .ready).SEQ ≠ .idle ∧ (base .idle).SEQ ≠ .ready ∧
    ∃ t, step (having .chk [0x3000]) = .next t :=
  ⟨by decide, by decide, by decide, step_answers _⟩

theorem witness_EveryCommandAnsweredOnce :
    (commanded .ready [0x2000, 0x3000]).level = .command ∧ (commanded .ready [0x2000, 0x3000]).SEQ.isWait = true ∧
    (commanded .ready [0x2000, 0x3000]).CMD = [0x2000, 0x3000] ∧ rspFull (commanded .ready [0x2000, 0x3000]) = false := by
  decide

theorem witness_OnlyListedResponsesEmitted :
    ∃ t, step (having .idle [0x0000]) = .next t ∧ t.RSP = [0xF003] :=
  ⟨_, rfl, by decide⟩

theorem witness_ProtocolAdmissionTable :
    (having .idle [0x2000]).CMD = [0x2000] ∧ (having .idle [0x2000]).SEQ = .idle ∧
    (having .ready [0x1000]).SEQ = .ready ∧ rspFull (having .idle [0x2000]) = false ∧
    rspFull (having .ready [0x1000]) = false ∧ decodeCommand 0x2000 = .ok (.data 0) ∧
    decodeCommand 0x3000 = .ok .endCall ∧ decodeCommand 0x1000 = .ok (.start 0) := by decide

theorem witness_IllegalCommandRefused :
    ((having .idle [0x2100]).SEQ.isWait = true ∧ (having .idle [0x2100]).CMD = [0x2100] ∧
      rspFull (having .idle [0x2100]) = false ∧ decodeCommand 0x2100 = .error .dataFieldNotZero) ∧
    ((having .ready [0x3001]).SEQ.isWait = true ∧ (having .ready [0x3001]).CMD = [0x3001] ∧
      rspFull (having .ready [0x3001]) = false ∧ decodeCommand 0x3001 = .error .endFieldNotZero) := by decide

theorem witness_ErrorPriority :
    (∀ w ∈ [0x0000#16, 0x1000, 0x1001, 0x2000, 0x3000], (commanded .idle [w]).level = .command ∧
      (commanded .idle [w]).SEQ.isWait = true ∧ (commanded .idle [w]).CMD = [w] ∧ rspFull (commanded .idle [w]) = false) ∧
    ∀ w ∈ [0x2100#16, 0x1000, 0x2000, 0x3000], (commanded .ready [w]).level = .command ∧
      (commanded .ready [w]).SEQ.isWait = true ∧ (commanded .ready [w]).CMD = [w] ∧
      rspFull (commanded .ready [w]) = false :=
  ⟨fun _ _ => ⟨rfl, rfl, rfl, rfl⟩, fun _ _ => ⟨rfl, rfl, rfl, rfl⟩⟩

theorem witness_ErrorsArePrecise :
    (∃ t, step (having .ready [0x1000]) = .next t ∧ t.RSP = (having .ready [0x1000]).RSP ++ [0xF000#16 + ErrCode.protocol.code.setWidth 16]) ∧
    ∃ t, step (base .chk) = .next t ∧ t.RSP = (base .chk).RSP ++ [0xF000#16 + ErrCode.invalidKey.code.setWidth 16] :=
  ⟨⟨_, rfl, by decide⟩, ⟨_, rfl, by decide⟩⟩

theorem witness_FailedStartOpensNoCall :
    let s := { commanded .idle [0x1000, 0x20FF, 0x3000] with params := { depth := .onePlus 2, obsPort := false } }
    s.level = .command ∧ s.SEQ = .idle ∧ (∀ n, s.params.depth.capacity = some n → s.RSP.length + 3 ≤ n) ∧
    s.CMD = [startWord 0, dataWord 0xFF, endWord] :=
  ⟨rfl, rfl, fun n h => by injection h with h; subst h; decide, by decide⟩

theorem witness_RefusedWordLeavesCallIntact :
    let s := { having .ready [0x1000, 0x2041] with params := { depth := .onePlus 1, obsPort := false } }
    s.SEQ = .ready ∧ (∀ n, s.params.depth.capacity = some n → s.RSP.length + 2 ≤ n) ∧ s.CMD = [0x1000, dataWord 0x41] ∧
    (∃ k, decodeCommand 0x1000 = .ok (.start k)) ∧ (∃ r, decodeCommand 0x2100 = .error r) ∧
    ∃ t u v, step s = .next t ∧ exec (.data 0x41) t = .next u ∧
      exec (.data 0x41) { s with CMD := [dataWord 0x41] } = .next v :=
  ⟨rfl, fun n h => by injection h with h; subst h; decide, by decide, ⟨0, by decide⟩, ⟨_, rfl⟩, _, _, _, rfl, rfl, rfl⟩

theorem witness_KeySpaceNeverWritten : ∃ t, exec .kstep (base .kstep) = .next t := ⟨_, rfl⟩

theorem witness_OnlyListedWritersOfRegisters :
    ∃ t, exec .pstep (base .pstep) = .next t ∧ t.I ≠ (base .pstep).I ∧ t.Z ≠ (base .pstep).Z :=
  ⟨_, rfl, by decide +kernel, by decide +kernel⟩

theorem witness_SequencerSuccessors :
    ∀ q : SeqCode, (base q).level = .micro ∧ ∃ t, step (base q) = .next t := fun _ => ⟨rfl, step_answers _⟩

theorem witness_ReadyLeftOnlyByEndOrReset :
    (commanded .ready [0x3000]).level = .command ∧ (commanded .ready [0x3000]).SEQ = .ready ∧
    ∃ t, step (commanded .ready [0x3000]) = .next t ∧ t.SEQ = .idle := ⟨rfl, rfl, _, rfl, by decide⟩

/-- An open call: a permutation in S, I = FF, a DATA waiting. -/
theorem open_call_inv : EngineInv { having .ready [0x2041] with I := 255 } where
  keyWf := by decide +kernel
  rspLegal := fun _ h => by cases h
  cmdFits := fun _ h => by cases h
  rspFits := fun _ h => by cases h
  perm := fun _ => isPerm_identity
  cmdr := trivial
  swept := fun h => by cases h
  answered := by decide
  paired := by decide

theorem witness_StepKeepsInvariant :
    ∃ s t, EngineInv s ∧ s.SEQ = .ready ∧ step s = .next t ∧ t.SEQ = .pstep := ⟨_, _, open_call_inv, rfl, rfl, by decide⟩

theorem witness_HostMovesKeepInvariant : ∃ s, EngineInv s ∧ s.CMD ≠ [] := ⟨_, open_call_inv, by decide⟩

/-- `.key 4B`, START 1, at command level: the call is open. -/
theorem witness_PermutationHeldInEveryRun :
    ∃ s, Reachable s ∧ s.SEQ = .ready ∧ s.SEQ ∉ [SeqCode.idle, .chk, .init] :=
  ⟨_, ⟨_, _, [.host (.placeKey 0 0x4B), .host (.send 0x1001), .engine], rfl⟩,
    (by decide : (runEvents [.host (.placeKey 0 0x4B), .host (.send 0x1001), .engine]
      (launch { depth := .unbounded, obsPort := false } .command)).SEQ = .ready), by decide⟩

theorem witness_UnspecifiedValuesNeverReachAResponse :
    let s := having .idle [0x1001]
    let t := { s with I := 9, J := 8, Z := 7, CMDR := 0xFFFF }
    s.SEQ = .idle ∧ t.SEQ = .idle ∧ s.CMD = t.CMD ∧ s.RSP = t.RSP ∧ s.KEY = t.KEY ∧ s.params = t.params ∧
    s.level = t.level ∧ s.sent = t.sent ∧ s.Z ≠ t.Z := by decide

theorem witness_StepKeepsAgreement :
    ∃ s t s' t', Agree s t ∧ s.Z ≠ t.Z ∧ step s = .next s' ∧ step t = .next t' :=
  ⟨base .pstep, { base .pstep with Z := 7 }, _, _,
    ⟨rfl, rfl, rfl, rfl, rfl, rfl, rfl, fun _ => rfl, fun _ => ⟨rfl, rfl⟩, fun _ => rfl, fun h => by cases h⟩, by decide, rfl, rfl⟩

theorem witness_CommandEqualsItsMicroOperations :
    (having .idle [0x1FFF]).level = .micro ∧ (having .idle [0x1FFF]).SEQ.isWait = true ∧
    (having .idle [0x1FFF]).CMD = [0x1FFF] ∧ rspFull (having .idle [0x1FFF]) = false ∧
    ∃ t, step { having .idle [0x1FFF] with level := .command } = .next t :=
  ⟨rfl, rfl, rfl, rfl, step_answers _⟩

theorem witness_CommandsFinishInCountedSteps :
    ∀ w ∈ [0x1000#16, 0x1001, 0x2000, 0x0000], (having .idle [w]).level = .micro ∧ (having .idle [w]).SEQ.isWait = true ∧
      (having .idle [w]).CMD = [w] ∧ rspFull (having .idle [w]) = false :=
  fun _ _ => ⟨rfl, rfl, rfl, rfl⟩

/-- A key of one byte with depth just enough; the empty key; and a key over 4095 bytes, with length 256. -/
theorem witness_EngineComputesTransform :
    (let s := { commanded .idle [0x1001, 0x2050, 0x3000] with
        KEY := [(0, 0x4B)], params := { depth := .onePlus 2, obsPort := false } };
      s.SEQ = .idle ∧ (1 : Klen).toNat = [0x4B#8].length ∧
      (∀ a < min [0x4B#8].length 256, Memory.read s.KEY a = [0x4B#8][a]?) ∧
      (∀ d, s.params.depth.capacity = some d → s.RSP.length + [0x50#8].length + 2 ≤ d) ∧
      s.CMD = startWord 1 :: ([0x50#8].map dataWord ++ [endWord]) ∧
      ∃ out, transform [0x4B] [0x50] = some out) ∧
    ((0 : Klen).toNat = ([] : List Byte).length ∧ (having .idle [0x1000, 0x3000]).CMD = startWord 0 :: ([] ++ [endWord]) ∧
      transform [] [] = none) ∧
    256 ≤ (List.replicate 5000 0x4B#8).length ∧ 256 ≤ (256 : Klen).toNat :=
  ⟨⟨rfl, rfl, fun a h => by
      have h0 : a < 1 := h
      interval_cases a; rfl, fun d h => by injection h with h; subst h; decide, by decide, _, rfl⟩,
    ⟨rfl, by decide, rfl⟩, by rw [List.length_replicate]; decide, by decide⟩

theorem witness_TransformIsInvolution : ([0x4B, 0x65, 0x79] : List Byte) ≠ [] := by decide

theorem witness_OneOutputBytePerInputByte :
    (∃ out, transform [0x4B] [0x50, 0x6C] = some out) ∧
    ((commanded .ready [0x2050]).SEQ = .ready ∧ rspFull (commanded .ready [0x2050]) = false) ∧
    ∃ t, exec .xorb (base .xorb) = .next t ∧ t.RSP = (base .xorb).RSP ++ [0x2000#16 + (0#8).setWidth 16] :=
  ⟨⟨_, rfl⟩, ⟨rfl, rfl⟩, _, rfl, by decide⟩

theorem witness_OutputsDifferWhereInputsDo :
    let s := { commanded .ready [] with params := { depth := .onePlus 1, obsPort := false } }
    s.SEQ = .ready ∧ s.level = .command ∧ (∀ n, s.params.depth.capacity = some n → s.RSP.length + [0x6E#8, 0].length ≤ n) ∧
    ([0x6E#8, 0] : List Byte).length = ([0x61#8, 0] : List Byte).length ∧
    (∃ os, transform [0x4B] [0x6E, 0] = some os) ∧ ∃ ps, transform [0x4B] [0x61, 0] = some ps :=
  ⟨rfl, rfl, fun n h => by injection h with h; subst h; decide, rfl, ⟨_, rfl⟩, ⟨_, rfl⟩⟩

theorem witness_KeystreamIndependentOfInput :
    (∃ t u, exec (.data 0) (base .ready) = .next t ∧ exec (.data 0xFF) (base .ready) = .next u) ∧
    (∃ t, exec .pstep (base .pstep) = .next t) ∧ ∃ out, transform [0x4B] [0x50] = some out :=
  ⟨⟨_, _, rfl, rfl⟩, ⟨_, rfl⟩, ⟨_, rfl⟩⟩

theorem witness_LongKeyActsAsFirst256Bytes :
    256 ≤ (List.replicate 300 0x4B#8).length ∧ 256 ≤ (256#12).toNat ∧ 256 ≤ (4095#12).toNat ∧
    (∃ t, exec (.start 256) (base .idle) = .next t) ∧ ∃ t', exec (.start 4095) (base .idle) = .next t' :=
  ⟨by decide +kernel, by decide, by decide, exec_answers _ _, exec_answers _ _⟩

/-- Keys that differ at address 1 only, with L = 1. -/
theorem witness_ScheduleUsesOnlyKeyBytesRead :
    (∀ a : Byte, a.toNat < min (1#12).toNat 256 →
      keyRead { base .idle with KEY := [(0, 0x4B), (1, 0)] } a = keyRead (base .idle) a) ∧
    ∃ t, exec (.start 1) (base .idle) = .next t :=
  ⟨fun a h => by
    obtain rfl : a = 0 := by
      apply BitVec.eq_of_toNat_eq; simpa using h
    rfl, exec_answers _ _⟩

theorem witness_RepeatedKeySameTransform : ([0x4B, 0x65, 0x79] : List Byte) ≠ [] ∧ (2 : Nat) ≠ 0 := by decide

/-- START 3 sent: address 2 is held, address 3 is not; a START of 256 bytes or more holds every address, START 0 none. -/
theorem witness_KeyMoveWithheldDuringStart :
    let s := having .idle [0x1003]
    (startWord 3 ∈ s.sent ∧ (2 : Byte).toNat < min (3 : Klen).toNat 256) ∧ (255 : Byte).toNat < min (4095 : Klen).toNat 256 ∧
    (∀ k, startWord k ∈ s.sent → min k.toNat 256 ≤ (3 : Byte).toNat) ∧ Memory.wf s.KEY = true :=
  ⟨by decide, by decide, fun k h => by
    obtain rfl : k = 3 := (argField_startWord k).symm.trans (congrArg argField (List.mem_singleton.1 h))
    decide, by decide +kernel⟩

/-- START 1 in CMD, and running: SEQ is CHK. -/
theorem witness_KeyFixedWhileStartRuns :
    (∃ s, Reachable s ∧ startWord 1 ∈ s.CMD) ∧
    (∃ s, Reachable s ∧ s.CMDR = startWord 1 ∧ s.SEQ ∈ [SeqCode.chk, .init, .kbeg, .kstep, .prst]) ∧
    (0 : Byte).toNat < min (1 : Klen).toNat 256 :=
  ⟨⟨_, ⟨{ depth := .onePlus 0, obsPort := false }, .micro, [.host (.send 0x1001)], rfl⟩, by decide⟩,
    ⟨_, ⟨{ depth := .onePlus 0, obsPort := false }, .micro, [.host (.send 0x1001), .engine], rfl⟩, by decide, by decide⟩,
    by decide⟩

/-- A word answered and not received, and a word in CMD. -/
theorem witness_ResponsesPairWithWordsInOrder :
    ∃ s, Reachable s ∧ s.RSP = [0xF002] ∧ s.CMD = [0x1001] ∧ s.sent = [0x3000, 0x1001] :=
  ⟨_, ⟨{ depth := .unbounded, obsPort := false }, .micro, [.host (.send 0x3000), .host (.send 0x1001), .engine], rfl⟩,
    by decide, by decide, by decide⟩

theorem witness_AssemblerMakesTheCommands :
    (4095 : Nat) ≤ 4095 ∧ (255 : Nat) ≤ 255 ∧ (65535 : Nat) ≤ 65535 ∧ (4095 : Nat) < 4096 ∧ (255 : Nat) < 256 ∧
    (65535 : Nat) < 65536 ∧ ∀ b ∈ [0, 255], b ≤ 255 := by decide

theorem witness_ObservationPortShowsWaitStatesOnly :
    ({ base .idle with params := { depth := .unbounded, obsPort := true } } : State).params.obsPort = true ∧
    ((base .idle).SEQ = .idle ∨ (base .idle).SEQ = .ready) ∧ (base .idle).params.obsPort = false ∧
    (base .chk).SEQ.isWait = false := ⟨rfl, .inl rfl, rfl, rfl⟩

/-- Room for one word in a channel of one place, and none in a full one; words that just fit; a response there, and none. -/
theorem witness_HostMovesOnChannels :
    (base .idle).params.depth = .unbounded ∧
    ((full .idle).params.depth = .onePlus 0 ∧ (full .idle).CMD.length < 0 + 1) ∧
    0 + 1 ≤ ({ full .idle with CMD := [0x3000] } : State).CMD.length ∧
    (full .idle).RSP = [0x1000] ∧ (base .idle).RSP = [] ∧ (full .idle).CMD.length + [0x3000#16].length ≤ 0 + 1 := by decide

/-- Addresses a START does not hold, next to one it does (`witness_KeyMoveWithheldDuringStart`); bytes at and past 255. -/
theorem witness_AssemblerKeyDirectiveAndOtherLines :
    (∀ b ∈ [0, 255], b ≤ 255) ∧ (∃ b ∈ [255, 256], 255 < b) ∧ (4095 : Nat) < 4096 ∧
    (∀ k, startWord k ∈ (base .idle).sent → min k.toNat 256 ≤ (0 : Byte).toNat) ∧
    ((∀ bs, AsmLine.start .keylen ≠ .key bs) ∧ (Asm.assembleLine (some 4095) (.start .keylen)).isSome) ∧
    Asm.assembleLine (some 4096) (.start .keylen) = none :=
  ⟨by decide, by decide, by decide, fun _ h => (List.not_mem_nil h).elim, ⟨nofun, by decide⟩, by decide⟩

end Sys2Proof.Tests
end

/-! ### What a step takes up -/

section
namespace Sys2Proof.Machine

/-- What bits numbered as the opcode table numbers them decode to, one case a format. -/
theorem decodeTableWord_eq_some {nbits w : Nat} {i : Instr} (h : decodeTableWord nbits w = some i) :
    (nbits ≤ 8 ∧ decodeUop (BitVec.ofNat 4 w) = .ok i) ∨ (8 < nbits ∧ decodeCommand (BitVec.ofNat 16 w) = .ok i) := by
  have ofToOption : ∀ {x : Except Reject Instr}, x.toOption = some i → x = .ok i
    | .ok _, hx => congrArg Except.ok (Option.some.inj hx)
  unfold decodeTableWord at h
  split_ifs at h with hn
  · exact .inl ⟨hn, ofToOption h⟩
  · exact .inr ⟨by omega, ofToOption h⟩

/-- At micro level, and while a command runs, a step is the micro-operation SEQ's code decodes to (R14, R88). -/
theorem step_of_decodeUop {s : State} {i : Instr} (h : s.level = .micro ∨ s.SEQ.isWait = false)
    (hd : decodeUop s.SEQ.bits = .ok i) : step s = exec i s := by
  obtain rfl : s.SEQ.uop = i := Except.ok.inj ((decodeUop_bits s.SEQ).symm.trans hd)
  exact h.elim step_micro step_busy

theorem placeUop_uop {c : SeqBits} {q : SeqCode} (s : State) (hd : decodeUop c = .ok q.uop) :
    placeUop c s = { s with SEQ := q, level := .micro } := by
  simp [placeUop, hd]

theorem step_placeUop {c : SeqBits} {i : Instr} (s : State) (hd : decodeUop c = .ok i) :
    step (placeUop c s) = exec i (placeUop c s) := by
  obtain ⟨q, rfl, rfl⟩ := decodeUop_ok hd
  rw [placeUop_uop s hd]
  exact step_micro rfl

theorem placeCommand_isWait (w : Word) (s : State) : (placeCommand w s).SEQ.isWait = true := by
  unfold placeCommand
  dsimp only
  split_ifs with h
  · exact h
  · rfl

theorem step_placeCommand {w : Word} {i : Instr} (s : State) (hd : decodeCommand w = .ok i) :
    step (placeCommand w s) = exec i (placeCommand w s) :=
  step_command rfl (placeCommand_isWait w s) rfl hd

theorem step_withFetchWord {nbits w : Nat} {i : Instr} (s : State) (h : decodeTableWord nbits w = some i) :
    step (s.withFetchWord nbits w) = exec i (s.withFetchWord nbits w) := by
  unfold State.withFetchWord placeTableWord
  rcases decodeTableWord_eq_some h with ⟨hn, hd⟩ | ⟨hn, hd⟩
  · rw [if_pos hn]; exact step_placeUop s hd
  · rw [if_neg (by omega)]; exact step_placeCommand s hd

/-- Settles O6: what SEQ's code, the oldest word or a placed table word decodes to is what `fetch` takes up. -/
theorem stepRunsDecodedInstruction : Obligations.StepRunsDecodedInstruction :=
  ⟨fun _ _ => step_of_decodeUop, fun _ _ _ _ => step_command, fun s _ _ _ => step_withFetchWord s⟩

end Sys2Proof.Machine
end

/-! ### Keys of 256 bytes or more -/

section
namespace Sys2Proof.Machine

/-- A key of 256 bytes or more is read at the iteration's own index: no iteration wraps (R8, R53). -/
theorem keyAddr_of_le {L : Nat} (hL : 256 ≤ L) (i : Byte) : keyAddr L i = i := by
  apply BitVec.eq_of_toNat_eq
  rw [keyAddr_toNat i (by omega)]
  exact Nat.mod_eq_of_lt (i.isLt.trans_le hL)

theorem cyclicKey_of_lt {key : List Byte} {i : Nat} (hi : i < key.length) : cyclicKey key i = key[i] := by
  simp [cyclicKey, Nat.mod_eq_of_lt hi, hi]

/-- The 256 iterations of phase 1 read the first 256 bytes of a long key, each once. -/
theorem cyclicKey_take {key : List Byte} (hL : 256 ≤ key.length) {i : Nat} (hi : i < 256) :
    cyclicKey (key.take 256) i = cyclicKey key i := by
  rw [cyclicKey_of_lt (by rw [List.length_take]; omega), cyclicKey_of_lt (by omega), List.getElem_take]

theorem transform_take {key : List Byte} (hL : 256 ≤ key.length) (input : List Byte) :
    transform (key.take 256) input = transform key input := by
  have hksa : ksa (cyclicKey (key.take 256)) = ksa (cyclicKey key) := ksa_congr fun _ => cyclicKey_take hL
  have hempty : ¬ (key.take 256).length = 0 := by rw [List.length_take]; omega
  rw [transform, transform, if_neg hempty, if_neg (by omega), hksa]

/-- The effect of START with a key of 256 bytes or more: the length no longer occurs in it. -/
theorem startEffect_of_le {k : Klen} (hk : 256 ≤ k.toNat) (s : State) :
    startEffect k s =
      { rspEmit .ack s with S := ksa fun i => keyRead s (BitVec.ofNat 8 i), I := 0, J := 0, SEQ := .ready } := by
  have hne : k ≠ 0 := by rintro rfl; simp at hk
  simp only [startEffect_pos hne, keyAddr_of_le hk]

@[simp] theorem keyRead_setCMDR (s : State) (w : Word) : keyRead { s with CMDR := w } = keyRead s := rfl

/-- The word a refusal takes shows in CMDR only. -/
theorem refuseWord_setCMDR (e : ErrCode) (w w' : Word) (s : State) :
    ∃ c, refuseWord e w' s = { refuseWord e w s with CMDR := c } := by
  cases hr : rspFull s with
  | true => exact ⟨s.CMDR, by simp [refuseWord, hr]⟩
  | false => exact ⟨w', by simp [refuseWord_room, hr]⟩

/-- Two commands taken at the same SEQ, whose effects differ in CMDR only, do so when taken. -/
theorem takeCommand_setCMDR {eff eff' : State → State} {w w' : Word}
    (heff : ∀ u : State, eff' { u with CMDR := w' } = { eff { u with CMDR := w } with CMDR := w' })
    (admitted refused : SeqCode) (s : State) :
    ∃ c, takeCommand admitted refused w' eff' s = { takeCommand admitted refused w eff s with CMDR := c } := by
  unfold takeCommand
  split_ifs
  · exact ⟨s.CMDR, rfl⟩
  · exact ⟨w', heff (cmdTake s)⟩
  · exact refuseWord_setCMDR .protocol w w' s
  · exact ⟨s.CMDR, rfl⟩

/-- START with any two lengths of 256 or more answers the same state but for CMDR, which holds the word taken. -/
theorem exec_start_of_le {k k' : Klen} {s t t' : State} (hk : 256 ≤ k.toNat) (hk' : 256 ≤ k'.toNat)
    (ht : exec (.start k) s = .next t) (ht' : exec (.start k') s = .next t') : t' = { t with CMDR := t'.CMDR } := by
  have heff : ∀ u : State, startEffect k' { u with CMDR := startWord k' } =
      { startEffect k { u with CMDR := startWord k } with CMDR := startWord k' } := fun u => by
    simp [startEffect_of_le, hk, hk', rspEmit]
  obtain ⟨c, hc⟩ := takeCommand_setCMDR heff .idle .ready s
  cases ht; cases ht'
  rw [hc]

/-- Settles O51: iteration i of phase 1 reads byte i of a key of 256 bytes or more, whatever its length. -/
theorem longKeyActsAsFirst256Bytes : Obligations.LongKeyActsAsFirst256Bytes :=
  ⟨fun _ input hL => (transform_take hL input).symm, fun _ _ _ _ _ => exec_start_of_le⟩

end Sys2Proof.Machine
end

/-! ### The invariant of the machine -/

section
namespace Sys2Proof.Machine

/-! What is asked of a channel: room, and depth. -/

theorem channelFull_eq_false_iff {d : Depth} {ch : List Word} :
    channelFull d ch = false ↔ d = .unbounded ∨ ∃ n, d = .onePlus n ∧ ch.length < n + 1 := by
  cases d <;> simp [channelFull, Depth.capacity]

/-- A channel with room holds one more word within its depth (R31, R32). -/
theorem withinDepth_append {d : Depth} {ch : List Word} (h : channelFull d ch = false) (w : Word) :
    withinDepth d (ch ++ [w]) := by
  intro n hn
  simp only [channelFull, hn, decide_eq_false_iff_not] at h
  simp only [List.length_append, List.length_singleton]
  omega

theorem withinDepth_tail {d : Depth} {ch : List Word} (h : withinDepth d ch) : withinDepth d ch.tail := fun n hn => by
  have := h n hn
  rw [List.length_tail]
  omega

theorem withinDepth_nil (d : Depth) : withinDepth d [] := fun n _ => n.zero_le

theorem isResponseWord_responseWord (r : Response) : isResponseWord (responseWord r) = true := by
  cases r with
  | ack => decide
  | byte v => revert v; decide
  | err e => cases e <;> decide

/-! What a step does with words and responses. -/

/-- The words the engine has been sent and has not answered, oldest first: the command that runs, then CMD. -/
def pending (s : State) : List Word := inFlight s ++ s.CMD

theorem pending_of_wait {s : State} (h : s.SEQ.isWait = true) : pending s = s.CMD := by simp [pending, inFlight, h]

theorem pending_of_busy {s : State} (h : s.SEQ.isWait = false) : pending s = s.CMDR :: s.CMD := by
  simp [pending, inFlight, h]

/-- From `s` to `t` the command that CMDR holds is answered: one response is emitted and SEQ waits again (R32, R111). -/
structure Answers (s t : State) : Prop where
  rsp : ∃ r, t.RSP = s.RSP ++ [responseWord r]
  cmd : t.CMD = s.CMD
  cmdr : t.CMDR = s.CMDR
  waits : t.SEQ.isWait = true

theorem startEffect_answers (k : Klen) (s : State) : Answers s (startEffect k s) := by
  by_cases hk : k = 0
  · subst hk; rw [startEffect_zero]; exact ⟨⟨_, rfl⟩, rfl, rfl, rfl⟩
  · rw [startEffect_pos hk]; exact ⟨⟨_, rfl⟩, rfl, rfl, rfl⟩

theorem dataEffect_answers (d : Byte) (s : State) : Answers s (dataEffect d s) := ⟨⟨_, rfl⟩, rfl, rfl, rfl⟩

theorem endEffect_answers (s : State) : Answers s (endEffect s) := ⟨⟨_, rfl⟩, rfl, rfl, rfl⟩

/-- A step that emits: there is room in RSP, and the oldest word not answered is answered (R32, R217). -/
def EmitsFor (s t : State) : Prop :=
  rspFull s = false ∧ (∃ r, t.RSP = s.RSP ++ [responseWord r]) ∧ ∃ w, pending s = w :: pending t

/-- A micro-operation that emits answers the command that runs. -/
theorem EmitsFor.of_busy {s t : State} (hr : rspFull s = false) (hq : s.SEQ.isWait = false) (h : Answers s t) :
    EmitsFor s t :=
  ⟨hr, h.rsp, s.CMDR, by rw [pending_of_busy hq, pending_of_wait h.waits, h.cmd]⟩

/-- A command taken whole answers the oldest word of CMD. -/
theorem EmitsFor.of_command {s t : State} {w : Word} {rest : List Word} (hr : rspFull s = false)
    (hq : s.SEQ.isWait = true) (hc : s.CMD = w :: rest) (h : Answers { s with CMD := rest, CMDR := w } t) :
    EmitsFor s t :=
  ⟨hr, h.rsp, w, by rw [pending_of_wait hq, pending_of_wait h.waits, h.cmd, hc]⟩

/-- DISPATCH moves the word it accepts from CMD to CMDR: it is still the oldest one not answered (R110). -/
theorem pending_accepted {s : State} {w : Word} {rest : List Word} {go : SeqCode} (hq : s.SEQ.isWait = true)
    (hc : s.CMD = w :: rest) (hgo : go.isWait = false) :
    pending { s with CMD := rest, CMDR := w, SEQ := go } = pending s := by
  rw [pending_of_wait hq, pending_of_busy hgo, hc]

/-- A micro-operation that goes on with the command that runs leaves the words not answered as they are. -/
theorem pending_running {s t : State} (hs : s.SEQ.isWait = false) (ht : t.SEQ.isWait = false)
    (hcmdr : t.CMDR = s.CMDR) (hcmd : t.CMD = s.CMD) : pending t = pending s := by
  rw [pending_of_busy hs, pending_of_busy ht, hcmdr, hcmd]

/-- Every step emits nothing and leaves the words not answered as they are, or answers the oldest of them. -/
theorem StepCase.emits {s t : State} (h : StepCase s t) :
    (t.RSP = s.RSP ∧ pending t = pending s) ∨ EmitsFor s t := by
  have wait_of {q : SeqCode} (hq : s.SEQ = q) (hw : q.isWait = true) : s.SEQ.isWait = true := hq ▸ hw
  have busy_of {q : SeqCode} (hq : s.SEQ = q) (hw : q.isWait = false) : s.SEQ.isWait = false := hq ▸ hw
  cases h with
  | wait => exact .inl ⟨rfl, rfl⟩
  | refuse e w rest hq hc hr => exact .inr (.of_command hr hq hc ⟨⟨_, rfl⟩, rfl, rfl, hq⟩)
  | admitStart _ _ _ hq hc | admitData _ _ _ hq hc | admitEnd _ _ hq hc =>
    exact .inl ⟨rfl, pending_accepted (wait_of hq rfl) hc rfl⟩
  | start k _ _ hq hc hr => exact .inr (.of_command hr (wait_of hq rfl) hc (startEffect_answers k _))
  | data d _ _ hq hc hr => exact .inr (.of_command hr (wait_of hq rfl) hc (dataEffect_answers d _))
  | endCall _ _ hq hc hr => exact .inr (.of_command hr (wait_of hq rfl) hc (endEffect_answers _))
  | chkPass hq | sinit hq | kbeg hq | pstep hq => exact .inl ⟨rfl, pending_running (busy_of hq rfl) rfl rfl rfl⟩
  | kstep hq => exact .inl ⟨rfl, pending_running (busy_of hq rfl) (by dsimp only; split_ifs <;> rfl) rfl rfl⟩
  | chkFail hq _ hr | prst hq hr | xorb hq hr | endc hq hr =>
    exact .inr (.of_busy hr (busy_of hq rfl) ⟨⟨_, rfl⟩, rfl, rfl, rfl⟩)

/-- Words leave CMD in a wait state only, one at a time and from the front (R31). -/
theorem StepCase.cmd {s t : State} (h : StepCase s t) :
    t.CMD = s.CMD ∨ (s.SEQ.isWait = true ∧ t.CMD = s.CMD.tail) := by
  cases h with
  | refuse e w rest hq hc => exact .inr ⟨hq, by rw [hc]; rfl⟩
  | admitStart _ _ _ hq hc | admitData _ _ _ hq hc | admitEnd _ _ hq hc | data _ _ _ hq hc | endCall _ _ hq hc =>
    exact .inr ⟨by rw [hq]; rfl, by rw [hc]; rfl⟩
  | start k _ _ hq hc => exact .inr ⟨by rw [hq]; rfl, by rw [(startEffect_answers k _).cmd, hc]; rfl⟩
  | wait | chkFail | chkPass | sinit | kbeg | kstep | prst | pstep | xorb | endc => exact .inl rfl

/-! What a step does with S, CMDR and I. -/

theorem cmdrMatches_of_wait {s : State} (h : s.SEQ.isWait = true) : cmdrMatches s := by
  rcases (isWait_iff _).1 h with h | h <;> simp [cmdrMatches, h]

theorem startWord_ne_zero {k : Klen} (h : keyEmpty (startWord k) = false) : k ≠ 0 := by
  rintro rfl
  simp [keyEmpty, klenOf] at h

/-- While a command runs CMDR holds it (R29); CHKKEY lets no START 0 through (R131). -/
theorem StepCase.keeps_cmdrMatches {s t : State} (h : StepCase s t) (hs : cmdrMatches s) : cmdrMatches t := by
  unfold cmdrMatches at hs
  cases h with
  | wait => exact hs
  | refuse _ _ _ hq => exact cmdrMatches_of_wait hq
  | admitStart k => exact ⟨k, rfl⟩
  | admitData d => exact ⟨d, rfl⟩
  | admitEnd => exact rfl
  | start k => exact cmdrMatches_of_wait (startEffect_answers k _).waits
  | chkPass hq hk =>
    rw [hq] at hs
    obtain ⟨k, hw⟩ := hs
    exact ⟨k, startWord_ne_zero (hw ▸ hk), hw⟩
  | sinit hq | kbeg hq | pstep hq => rw [hq] at hs; exact hs
  | kstep hq =>
    rw [hq] at hs
    cases hd : sweepDone s.I <;> simpa [cmdrMatches, hd] using hs
  | data | endCall | chkFail | prst | xorb | endc => exact cmdrMatches_of_wait rfl

/-- START that opens a call leaves a permutation in S (R136). -/
theorem startEffect_perm {k : Klen} {s : State} (h : (startEffect k s).SEQ.holdsPerm = true) :
    IsPerm (startEffect k s).S := by
  by_cases hk : k = 0
  · subst hk; rw [startEffect_zero] at h; cases h
  · rw [startEffect_pos hk]; dsimp only; exact isPerm_ksa _

/-- SINIT makes S a permutation, and swaps keep it one until the discard (R21). -/
theorem StepCase.keeps_perm {s t : State} (h : StepCase s t) (hs : s.SEQ.holdsPerm = true → IsPerm s.S)
    (ht : t.SEQ.holdsPerm = true) : IsPerm t.S := by
  have kept {q : SeqCode} (hq : s.SEQ = q) (hp : q.holdsPerm = true) : IsPerm s.S := hs (hq ▸ hp)
  cases h with
  | wait | refuse => exact hs ht
  | admitStart | endCall | chkFail | chkPass | endc => cases ht
  | admitData _ _ _ hq | admitEnd _ _ hq | kbeg hq | prst hq | xorb hq => exact kept hq rfl
  | start => exact startEffect_perm ht
  | sinit => exact isPerm_identity
  | data _ _ _ hq | kstep hq | pstep hq => exact isPerm_swap (kept hq rfl) _ _

/-- PRST is entered from the last KSTEP only, which wraps I (R134). -/
theorem StepCase.keeps_swept {s t : State} (h : StepCase s t) (hs : s.SEQ = .prst → s.I = 0) (ht : t.SEQ = .prst) :
    t.I = 0 := by
  cases h with
  | wait | refuse => exact hs ht
  | kstep hq => cases hd : sweepDone s.I <;> simp_all
  | start k rest =>
    have hw := (startEffect_answers k { s with CMD := rest, CMDR := startWord k }).waits
    rw [ht] at hw
    cases hw
  | _ => cases ht

/-- The engine writes nothing that is the host's. -/
theorem step_outside {s t : State} (h : step s = .next t) :
    t.KEY = s.KEY ∧ t.params = s.params ∧ t.level = s.level ∧ t.sent = s.sent := by
  unfold step at h
  cases hf : fetch s with
  | instr i => rw [hf] at h; exact exec_outside h
  | illegal w =>
    rw [hf] at h
    injection h with h
    rcases refuseWord_cases .illegalCommand w s with ⟨_, hw⟩ | ⟨_, hw⟩ <;> simp [← h, hw]
  | waiting => rw [hf] at h; injection h with h; simp [h]

/-! The pairing of responses and words. -/

/-- The host's record holds an answered word for each response, then the words not answered (R32, R217; log entry 7). -/
structure Paired (rsp sent unanswered : List Word) : Prop where
  answered : rsp.length ≤ sent.length
  rest : sent.drop rsp.length = unanswered

/-- A response answers the oldest word not answered. -/
theorem Paired.answer {rsp sent ws : List Word} {w : Word} (h : Paired rsp sent (w :: ws)) (r : Word) :
    Paired (rsp ++ [r]) sent ws := by
  have hlen := congrArg List.length h.rest
  simp only [List.length_drop, List.length_cons] at hlen
  refine ⟨by simp; omega, ?_⟩
  rw [List.length_append, List.length_singleton, ← List.drop_drop, h.rest]
  rfl

theorem Paired.send {rsp sent ws : List Word} (h : Paired rsp sent ws) (w : Word) :
    Paired rsp (sent ++ [w]) (ws ++ [w]) :=
  ⟨by simpa using Nat.le_succ_of_le h.answered, by rw [List.drop_append_of_le_length h.answered, h.rest]⟩

theorem Paired.take {r : Word} {rsp sent ws : List Word} (h : Paired (r :: rsp) sent ws) : Paired rsp sent.tail ws := by
  have := h.answered
  exact ⟨by simp at this ⊢; omega, by rw [List.drop_tail]; exact h.rest⟩

theorem EngineInv.pairs {s : State} (h : EngineInv s) : Paired s.RSP s.sent (pending s) := ⟨h.answered, h.paired⟩

/-- A step keeps the pairing: what it emits answers the oldest word not answered. -/
theorem StepCase.keeps_paired {s t : State} (h : StepCase s t) (hsent : t.sent = s.sent)
    (hs : Paired s.RSP s.sent (pending s)) : Paired t.RSP t.sent (pending t) := by
  rw [hsent]
  rcases h.emits with ⟨hr, hp⟩ | ⟨_, ⟨r, hr⟩, w, hp⟩
  · rwa [hr, hp]
  · rw [hp] at hs; rw [hr]; exact hs.answer _

theorem StepCase.keeps_rspLegal {s t : State} (h : StepCase s t) (hs : ∀ w ∈ s.RSP, isResponseWord w = true) :
    ∀ w ∈ t.RSP, isResponseWord w = true := by
  rcases h.emits with ⟨hr, _⟩ | ⟨_, ⟨r, hr⟩, _⟩ <;> rw [hr]
  · exact hs
  · simpa [or_imp, forall_and, isResponseWord_responseWord] using hs

theorem StepCase.keeps_rspFits {s t : State} (h : StepCase s t) (hs : withinDepth s.params.depth s.RSP) :
    withinDepth s.params.depth t.RSP := by
  rcases h.emits with ⟨hr, _⟩ | ⟨hroom, ⟨r, hr⟩, _⟩ <;> rw [hr]
  · exact hs
  · exact withinDepth_append hroom _

theorem StepCase.keeps_cmdFits {s t : State} (h : StepCase s t) (hs : withinDepth s.params.depth s.CMD) :
    withinDepth s.params.depth t.CMD := by
  rcases h.cmd with hc | ⟨_, hc⟩ <;> rw [hc]
  · exact hs
  · exact withinDepth_tail hs

/-- A step keeps the invariant, clause by clause. -/
theorem EngineInv.step {s t : State} (hs : EngineInv s) (h : step s = .next t) : EngineInv t := by
  obtain ⟨hkey, hparams, -, hsent⟩ := step_outside h
  have hcase := step_case h
  have hpairs := hcase.keeps_paired hsent hs.pairs
  exact
    { keyWf := hkey ▸ hs.keyWf
      rspLegal := hcase.keeps_rspLegal hs.rspLegal
      cmdFits := hparams ▸ hcase.keeps_cmdFits hs.cmdFits
      rspFits := hparams ▸ hcase.keeps_rspFits hs.rspFits
      perm := hcase.keeps_perm hs.perm
      cmdr := hcase.keeps_cmdrMatches hs.cmdr
      swept := hcase.keeps_swept hs.swept
      answered := hpairs.answered
      paired := hpairs.rest }

/-- Settles O39: each clause is kept in every case of `StepCase`. -/
theorem stepKeepsInvariant : Obligations.StepKeepsInvariant := fun _ _ => EngineInv.step

end Sys2Proof.Machine
end

/-! ### The invariant in every run -/

section
namespace Sys2Proof.Machine

theorem hostSend_room (w : Word) {s : State} (h : channelFull s.params.depth s.CMD = false) :
    hostSend w s = { s with CMD := s.CMD ++ [w], sent := s.sent ++ [w] } := by simp [hostSend, h]

theorem hostSend_full (w : Word) {s : State} (h : channelFull s.params.depth s.CMD = true) : hostSend w s = s :=
  if_pos h

theorem hostTake_cons {r : Word} {rs : List Word} {s : State} (h : s.RSP = r :: rs) :
    hostTake s = { s with RSP := rs, sent := s.sent.tail } := by simp [hostTake, h]

theorem hostTake_nil {s : State} (h : s.RSP = []) : hostTake s = s := by
  obtain ⟨⟩ := s
  simp_all [hostTake]

theorem EngineInv.send {s : State} (h : EngineInv s) (w : Word) : EngineInv (hostSend w s) := by
  cases hroom : channelFull s.params.depth s.CMD with
  | true => rwa [hostSend_full w hroom]
  | false =>
    have hpairs := h.pairs.send w
    rw [hostSend_room w hroom]
    exact { h with
      cmdFits := withinDepth_append hroom w
      answered := hpairs.answered
      paired := hpairs.rest.trans (List.append_assoc ..) }

theorem EngineInv.take {s : State} (h : EngineInv s) : EngineInv (hostTake s) := by
  cases hr : s.RSP with
  | nil => rwa [hostTake_nil hr]
  | cons r rs =>
    have hpairs := h.pairs
    rw [hr] at hpairs
    rw [hostTake_cons hr]
    exact { h with
      rspLegal := fun w hw => h.rspLegal w (by rw [hr]; exact List.mem_cons_of_mem r hw)
      rspFits := by simpa [hr] using withinDepth_tail h.rspFits
      answered := hpairs.take.answered
      paired := hpairs.take.rest }

theorem EngineInv.placeKey {s : State} (h : EngineInv s) (a b : Byte) : EngineInv (hostPlaceKey a b s) := by
  have hkey := hostMove_key_wf (.placeKey a b) h.keyWf
  simp only [hostMove, hostPlaceKey] at hkey ⊢
  split_ifs at hkey ⊢
  · exact h
  · exact { h with keyWf := hkey }

/-- With SEQ in IDLE, both channels and the host's record empty, only the KEY space is asked for anything. -/
theorem EngineInv.of_empty {s : State} (hkey : Memory.wf s.KEY = true) (hq : s.SEQ = .idle) (hcmd : s.CMD = [])
    (hrsp : s.RSP = []) (hsent : s.sent = []) : EngineInv s where
  keyWf := hkey
  rspLegal := by simp [hrsp]
  cmdFits := hcmd ▸ withinDepth_nil _
  rspFits := hrsp ▸ withinDepth_nil _
  perm := by simp [hq, SeqCode.holdsPerm]
  cmdr := cmdrMatches_of_wait (by rw [hq]; rfl)
  swept := by simp [hq]
  answered := by simp [hrsp]
  paired := by simp [inFlight, hq, hcmd, hsent, SeqCode.isWait]

theorem EngineInv.hostMove {s : State} (h : EngineInv s) (m : HostMove) : EngineInv (hostMove m s) := by
  cases m with
  | send w => exact h.send w
  | take => exact h.take
  | placeKey a b => exact h.placeKey a b
  | reset => exact .of_empty (hostMove_key_wf .reset h.keyWf) rfl rfl rfl rfl

theorem engineInv_launch (p : Params) (l : Level) : EngineInv (launch p l) :=
  .of_empty reset_key_wf rfl rfl rfl rfl

theorem EngineInv.applyEvent {s : State} (h : EngineInv s) (e : Event) : EngineInv (applyEvent e s) := by
  cases e with
  | engine =>
    obtain ⟨t, ht⟩ := step_answers s
    rw [applyEvent_engine ht]
    exact h.step ht
  | host m => exact h.hostMove m

theorem EngineInv.runEvents (es : List Event) {s : State} (h : EngineInv s) : EngineInv (runEvents es s) := by
  induction es generalizing s with
  | nil => exact h
  | cons e es ih => exact ih (h.applyEvent e)

theorem Reachable.engineInv {s : State} (h : Reachable s) : EngineInv s := by
  obtain ⟨p, l, es, rfl⟩ := h
  exact (engineInv_launch p l).runEvents es

/-- SINIT has run and the discard has not, wherever R21 asks for a permutation. -/
theorem holdsPerm_of_not_mem {q : SeqCode} (h : q ∉ [SeqCode.idle, .chk, .init]) : q.holdsPerm = true := by
  cases q <;> simp_all [SeqCode.holdsPerm]

theorem inFlight_eq (s : State) : inFlight s = if s.SEQ = .idle ∨ s.SEQ = .ready then [] else [s.CMDR] := by
  simp only [inFlight, isWait_iff]

/-- Settles O38: at launch SEQ is IDLE and both channels are empty. -/
theorem invariantAtLaunch : Obligations.InvariantAtLaunch :=
  ⟨.of_empty reset_key_wf rfl rfl rfl rfl, engineInv_launch⟩

/-- Settles O40, a host move at a time. -/
theorem hostMovesKeepInvariant : Obligations.HostMovesKeepInvariant := fun m _ h => h.hostMove m

/-- Settles O41: the invariant's clause on S, in every reachable state. -/
theorem permutationHeldInEveryRun : Obligations.PermutationHeldInEveryRun :=
  fun _ hs hq => hs.engineInv.perm (holdsPerm_of_not_mem hq)

/-- Settles O56: the words answered are the first of `sent`, as many as there are responses; the invariant gives the rest. -/
theorem responsesPairWithWordsInOrder : Obligations.ResponsesPairWithWordsInOrder := by
  intro s hs
  have h := hs.engineInv
  refine ⟨s.sent.take s.RSP.length, List.length_take_of_le h.answered, ?_⟩
  rw [← inFlight_eq, List.append_assoc, ← h.paired, List.take_append_drop]

/-! Sending and taking on the channels. -/

/-- Words sent one after another, with room for them all, stand in CMD in the order sent (R31). -/
theorem runEvents_sends (ws : List Word) {s : State}
    (h : s.params.depth = .unbounded ∨ ∃ n, s.params.depth = .onePlus n ∧ s.CMD.length + ws.length ≤ n + 1) :
    runEvents (ws.map fun w => .host (.send w)) s = { s with CMD := s.CMD ++ ws, sent := s.sent ++ ws } := by
  induction ws generalizing s with
  | nil => simp [runEvents]
  | cons w ws ih =>
    simp only [List.length_cons] at h
    have hroom : channelFull s.params.depth s.CMD = false :=
      channelFull_eq_false_iff.2 (h.imp_right fun ⟨n, hd, hn⟩ => ⟨n, hd, by omega⟩)
    simp only [List.map_cons, runEvents, applyEvent, hostMove, hostSend_room w hroom]
    refine (ih ?_).trans (by simp)
    exact h.imp_right fun ⟨n, hd, hn⟩ => ⟨n, hd, by simp; omega⟩

/-- `n` takes remove the `n` oldest responses (R32). -/
theorem runEvents_takes_RSP (n : Nat) (s : State) :
    (runEvents (List.replicate n (.host .take)) s).RSP = s.RSP.drop n := by
  induction n generalizing s with
  | zero => rfl
  | succ n ih =>
    rw [List.replicate_succ, runEvents, ih, ← List.drop_tail]
    rfl

/-- Settles O59: what one send or one take does, with and without room or a response, and by induction what many do. -/
theorem hostMovesOnChannels : Obligations.HostMovesOnChannels := by
  refine ⟨fun w s h => hostSend_room w (channelFull_eq_false_iff.2 h), ?full, ?taken, ?empty,
    fun ws _ => runEvents_sends ws, fun n s => ⟨runEvents_takes_RSP n s, ?seen⟩⟩
  case full => exact fun w s n hd hn => hostSend_full w (by simpa [channelFull, hd, Depth.capacity] using hn)
  case taken => exact fun r rs s h => ⟨by simp [hostSees, h], hostTake_cons h⟩
  case empty => exact fun s h => ⟨by simp [hostSees, h], hostTake_nil h⟩
  case seen => rw [hostSees, runEvents_takes_RSP, List.head?_drop]

end Sys2Proof.Machine
end

/-! ### Waiting, answering and writing -/

section
namespace Sys2Proof.Machine

variable {s : State}

/-! What changes nothing. -/

theorem dispatch_nil {code : SeqCode} {admits : Instr → Option SeqCode} (h : s.CMD = []) :
    dispatch code admits s = s := by simp [dispatch, h]

theorem dispatch_of_ne {code : SeqCode} {admits : Instr → Option SeqCode} (h : s.SEQ ≠ code) :
    dispatch code admits s = s := if_neg h

theorem refuseWord_full (e : ErrCode) (w : Word) (h : rspFull s = true) : refuseWord e w s = s := if_pos h

/-- With RSP full DISPATCH takes no word but one that it admits (R32). -/
theorem dispatch_full {code : SeqCode} {admits : Instr → Option SeqCode} (hr : rspFull s = true)
    (hna : ∀ w rest c, s.CMD = w :: rest → decodeCommand w = .ok c → admits c = none) :
    dispatch code admits s = s := by
  rcases dispatch_cases code admits s with h | ⟨w, _, e, _, _, h⟩ | ⟨w, rest, c, go, _, hc, hd, ha, _⟩
  · exact h
  · rw [h, refuseWord_full e w hr]
  · rw [hna w rest c hc hd] at ha; cases ha

/-- With RSP full a command waits, its word still in CMD (R32; log entry 5). -/
theorem takeCommand_full {admitted refused : SeqCode} {w : Word} {eff : State → State} (hr : rspFull s = true) :
    takeCommand admitted refused w eff s = s := by
  rcases takeCommand_cases admitted refused w eff s with h | ⟨_, h⟩ | ⟨_, hroom, _⟩
  · exact h
  · rw [h, refuseWord_full .protocol w hr]
  · rw [hr] at hroom; cases hroom

/-- No command is taken outside the wait states (R31; log entry 14). -/
theorem takeCommand_busy {admitted refused : SeqCode} {w : Word} {eff : State → State} (hq : s.SEQ.isWait = false)
    (ha : admitted.isWait = true) (hb : refused.isWait = true) : takeCommand admitted refused w eff s = s := by
  have hna : s.SEQ ≠ admitted := by rintro rfl; rw [ha] at hq; cases hq
  have hnb : s.SEQ ≠ refused := by rintro rfl; rw [hb] at hq; cases hq
  rw [takeCommand, if_neg hna, if_neg hnb]

theorem step_command_nil (hl : s.level = .command) (hq : s.SEQ.isWait = true) (hc : s.CMD = []) :
    step s = .next s := by simp [step, fetch, hl, hq, hc]

/-- Settles O8: at micro level it is DISPATCH that waits, at command level the step itself. -/
theorem emptyCommandChannelWaits : Obligations.EmptyCommandChannelWaits := by
  intro s hq hc
  cases hl : s.level with
  | command => exact step_command_nil hl hq hc
  | micro =>
    rw [step_micro hl]
    rcases (isWait_iff _).1 hq with h | h <;> rw [h]
    · exact congrArg _ (dispatch_nil hc)
    · exact congrArg _ (dispatch_nil hc)

/-- With RSP full no step emits (R32). -/
theorem StepCase.RSP_of_full {t : State} (h : StepCase s t) (hr : rspFull s = true) : t.RSP = s.RSP := by
  rcases h.emits with ⟨h, _⟩ | ⟨hroom, _⟩
  · exact h
  · rw [hr] at hroom; cases hroom

theorem exec_chkkey_full (hr : rspFull s = true) (hk : klenOf s.CMDR = 0) : exec .chkkey s = .next s := by
  simp [exec, execChkkey, keyEmpty, hk, hr]

theorem admitsIdle_eq_none {c : Instr} (h : ∀ k, c ≠ .start k) : admitsIdle c = none := by
  cases c with
  | start k => exact absurd rfl (h k)
  | _ => rfl

theorem admitsReady_eq_none {c : Instr} (hd : ∀ d, c ≠ .data d) (he : c ≠ .endCall) : admitsReady c = none := by
  cases c with
  | data d => exact absurd rfl (hd d)
  | endCall => exact absurd rfl he
  | _ => rfl

theorem exec_dispatchIdle_full {w : Word} {rest : List Word} (hr : rspFull s = true) (hc : s.CMD = w :: rest)
    (h : ∀ k, decodeCommand w ≠ .ok (.start k)) : exec .dispatchIdle s = .next s := by
  refine congrArg _ (dispatch_full hr fun w' rest' c hc' hd => admitsIdle_eq_none ?_)
  obtain ⟨rfl, -⟩ := List.cons.inj (hc.symm.trans hc')
  rintro k rfl
  exact h k hd

theorem exec_dispatchReady_full {w : Word} {rest : List Word} (hr : rspFull s = true) (hc : s.CMD = w :: rest)
    (h : ∀ d, decodeCommand w ≠ .ok (.data d)) (he : decodeCommand w ≠ .ok .endCall) :
    exec .dispatchReady s = .next s := by
  refine congrArg _ (dispatch_full hr fun w' rest' c hc' hd => ?_)
  obtain ⟨rfl, -⟩ := List.cons.inj (hc.symm.trans hc')
  exact admitsReady_eq_none (by rintro d rfl; exact h d hd) (by rintro rfl; exact he hd)

/-- Settles O20: each emitting instruction tests for room first, and `StepCase` has room wherever it emits. -/
theorem fullResponseChannelWaits : Obligations.FullResponseChannelWaits := by
  intro s hr
  refine ⟨by simp [exec, execPrst, hr], by simp [exec, execXorb, hr], by simp [exec, execEndc, hr],
    fun hk => exec_chkkey_full hr (by rw [klenOf_eq_mask, hk]; rfl),
    fun w rest hc => ⟨exec_dispatchIdle_full hr hc, exec_dispatchReady_full hr hc⟩,
    fun k => congrArg _ (takeCommand_full hr), fun d => congrArg _ (takeCommand_full hr),
    congrArg _ (takeCommand_full hr), fun t ht => (step_case ht).RSP_of_full hr⟩

theorem StepCase.CMD_of_busy {t : State} (h : StepCase s t) (hq : s.SEQ.isWait = false) : t.CMD = s.CMD := by
  rcases h.cmd with h | ⟨hw, _⟩
  · exact h
  · rw [hq] at hw; cases hw

/-- Settles O24: words leave CMD in a wait state only, and `exec` tests SEQ for the others. -/
theorem noCommandTakenWhileOneRuns : Obligations.NoCommandTakenWhileOneRuns := fun _ =>
  ⟨fun hq => ⟨fun _ ht => (step_case ht).CMD_of_busy hq, fun _ => congrArg _ (takeCommand_busy hq rfl rfl),
      fun _ => congrArg _ (takeCommand_busy hq rfl rfl), congrArg _ (takeCommand_busy hq rfl rfl)⟩,
    fun h => congrArg _ (dispatch_of_ne h), fun h => congrArg _ (dispatch_of_ne h)⟩

/-! What a word taken at command level does. -/

/-- With room in RSP a step at command level takes the oldest word into CMDR and answers it (R111). -/
theorem step_command_answers {w : Word} {rest : List Word} (hl : s.level = .command) (hq : s.SEQ.isWait = true)
    (hc : s.CMD = w :: rest) (hr : rspFull s = false) :
    ∃ t, step s = .next t ∧ Answers { s with CMD := rest, CMDR := w } t := by
  have hmicro : s.level ≠ .micro := by simp [hl]
  rcases step_taken hq hc hr with ⟨_, h⟩ | ⟨_, h⟩ | ⟨k, _, _, h⟩ | ⟨d, _, _, h⟩ | ⟨_, _, h⟩
  · exact ⟨_, h, ⟨.err .illegalCommand, by rw [responseWord_illegalCommand]⟩, rfl, rfl, hq⟩
  · exact ⟨_, h, ⟨.err .protocol, by rw [responseWord_protocol]⟩, rfl, rfl, hq⟩
  · rw [if_neg hmicro] at h; exact ⟨_, h, startEffect_answers k _⟩
  · rw [if_neg hmicro] at h; exact ⟨_, h, dataEffect_answers d _⟩
  · rw [if_neg hmicro] at h; exact ⟨_, h, endEffect_answers _⟩

/-- Settles O25. -/
theorem everyCommandAnsweredOnce : Obligations.EveryCommandAnsweredOnce := by
  intro s w rest hl hq hc hr
  obtain ⟨t, ht, ⟨r, hrsp⟩, hcmd, hcmdr, hwaits⟩ := step_command_answers hl hq hc hr
  exact ⟨t, responseWord r, ht, hcmd, hcmdr, hrsp, hwaits⟩

/-! Where SEQ goes and what an instruction writes. -/

/-- The codes SEQ can go to from a code, at micro level (R25, R26). -/
def SeqCode.successors : SeqCode → List SeqCode
  | .idle => [.chk, .idle]
  | .chk => [.init, .idle]
  | .init => [.kbeg]
  | .kbeg => [.kstep]
  | .kstep => [.kstep, .prst]
  | .prst => [.ready]
  | .ready => [.pstep, .endc, .ready]
  | .pstep => [.xorb]
  | .xorb => [.ready]
  | .endc => [.idle]

theorem SeqCode.self_mem_successors {q : SeqCode} (h : q.isWait = true) : q ∈ q.successors := by
  rcases (isWait_iff q).1 h with rfl | rfl <;> decide

theorem StepCase.successor {t : State} (h : StepCase s t) (hl : s.level = .micro) :
    t = s ∨ t.SEQ ∈ s.SEQ.successors := by
  have mem {q : SeqCode} (hq : s.SEQ = q) {r : SeqCode} (hr : r ∈ q.successors) : r ∈ s.SEQ.successors := hq ▸ hr
  cases h with
  | wait => exact .inl rfl
  | refuse e w rest hq => exact .inr (SeqCode.self_mem_successors hq)
  | start _ _ hl' => rw [hl] at hl'; cases hl'
  | data _ _ hl' => rw [hl] at hl'; cases hl'
  | endCall _ hl' => rw [hl] at hl'; cases hl'
  | kstep hq => exact .inr (mem hq (by dsimp only; split_ifs <;> simp [SeqCode.successors]))
  | admitStart _ _ _ hq | admitData _ _ _ hq | admitEnd _ _ hq | chkFail hq | chkPass hq | sinit hq | kbeg hq
  | prst hq | pstep hq | xorb hq | endc hq => exact .inr (mem hq (by simp [SeqCode.successors]))

/-- Settles O35, a case of `StepCase` at a time. -/
theorem sequencerSuccessors : Obligations.SequencerSuccessors := by
  intro s t hl ht
  refine ((step_case ht).successor hl).imp_right fun h => ?_
  revert h
  cases s.SEQ <;> simp [SeqCode.successors]

theorem refuseWord_frame (e : ErrCode) (w : Word) (s : State) :
    (refuseWord e w s).S = s.S ∧ (refuseWord e w s).I = s.I ∧ (refuseWord e w s).J = s.J ∧
      (refuseWord e w s).Z = s.Z := by
  rcases refuseWord_cases e w s with ⟨_, h⟩ | ⟨_, h⟩ <;> simp [h]

/-- DISPATCH leaves S, I, J and Z as they were (R110). -/
theorem dispatch_frame (code : SeqCode) (admits : Instr → Option SeqCode) (s : State) :
    (dispatch code admits s).S = s.S ∧ (dispatch code admits s).I = s.I ∧ (dispatch code admits s).J = s.J ∧
      (dispatch code admits s).Z = s.Z := by
  rcases dispatch_cases code admits s with h | ⟨w, _, e, _, _, h⟩ | ⟨w, _, _, go, _, _, _, _, h⟩ <;> rw [h]
  · simp
  · exact refuseWord_frame e w s
  · simp

/-- START leaves Z as it was (R112). -/
theorem takeCommand_start_Z (k : Klen) (s : State) :
    (takeCommand .idle .ready (startWord k) (startEffect k) s).Z = s.Z := by
  rcases takeCommand_cases .idle .ready (startWord k) (startEffect k) s with h | ⟨_, h⟩ | ⟨_, _, h⟩ <;> rw [h]
  · exact (refuseWord_frame _ _ s).2.2.2
  · unfold startEffect
    split_ifs <;> simp

/-- Settles O34: each instruction leaves alone the registers it is not listed for. -/
theorem onlyListedWritersOfRegisters : Obligations.OnlyListedWritersOfRegisters := by
  intro i s t h
  cases i <;> simp only [exec] at h <;> injection h with h <;> subst h
  case start => simp [takeCommand_start_Z]
  case dispatchIdle | dispatchReady => simp [dispatch_frame]
  case chkkey | prst | xorb | endc => split_ifs <;> simp
  case data | endCall | sinit | kbeg | kstep | pstep => simp

end Sys2Proof.Machine
end

/-! ### The KEY space and the host's key move -/

section
namespace Sys2Proof.Machine

theorem keyRead_of_KEY {s t : State} (h : t.KEY = s.KEY) : keyRead t = keyRead s := by
  funext a
  rw [keyRead, keyRead, h]

/-- Settles O33: `exec` leaves the host's fields alone, and a key read looks at KEY only. -/
theorem keySpaceNeverWritten : Obligations.KeySpaceNeverWritten := by
  intro i s t h
  obtain ⟨hkey, hparams, hlevel, -⟩ := exec_outside h
  exact ⟨hkey, congrFun (keyRead_of_KEY hkey), hparams, hlevel⟩

/-- Settles O15: the remainder is below L, and as an address it has 8 bits. -/
theorem keyAddressInsideKey : Obligations.KeyAddressInsideKey := by
  intro L i hL
  have haddr := keyAddr_toNat i hL
  exact ⟨haddr, lt_min (haddr ▸ Nat.mod_lt _ (Nat.pos_of_ne_zero hL)) (keyAddr L i).isLt⟩

/-! What the host must keep. -/

/-- A word gives its call the key byte at `a` if it is a START long enough (R54). -/
theorem startHolds_iff {a : Byte} {w : Word} :
    startHolds a w = true ↔ ∃ k, w = startWord k ∧ a.toNat < min k.toNat 256 := by
  rw [startHolds, decide_eq_true_iff]
  constructor
  · rintro ⟨hop, ha⟩
    exact ⟨argField w, eq_startWord (by simp [decodeCommand, hop]), ha⟩
  · rintro ⟨k, rfl, ha⟩
    exact ⟨opcField_startWord k, by rwa [klenOf, argField_startWord]⟩

theorem keyHeld_iff {a : Byte} {s : State} :
    keyHeld a s = true ↔ ∃ k, startWord k ∈ s.sent ∧ a.toNat < min k.toNat 256 := by
  simp only [keyHeld, List.any_eq_true, startHolds_iff]
  constructor
  · rintro ⟨_, hmem, k, rfl, ha⟩; exact ⟨k, hmem, ha⟩
  · rintro ⟨k, hmem, ha⟩; exact ⟨_, hmem, k, rfl, ha⟩

theorem hostPlaceKey_held {a : Byte} {s : State} (b : Byte) (h : keyHeld a s = true) : hostPlaceKey a b s = s :=
  if_pos h

theorem hostPlaceKey_free {a : Byte} {s : State} (b : Byte) (h : keyHeld a s = false) :
    hostPlaceKey a b s = { s with KEY := Memory.write s.KEY a.toNat b } := by simp [hostPlaceKey, h]

/-- A key read after a byte is placed: that byte at its address, every other address as before (R52). -/
theorem keyRead_write (s : State) (a b x : Byte) :
    keyRead { s with KEY := Memory.write s.KEY a.toNat b } x = if x = a then b else keyRead s x := by
  simp only [keyRead, Memory.read_write, BitVec.toNat_inj]
  split_ifs <;> rfl

/-- Settles O54: the first premise says that the address is held, the second that it is not. -/
theorem keyMoveWithheldDuringStart : Obligations.KeyMoveWithheldDuringStart := by
  refine fun a b s => ⟨fun hheld => hostPlaceKey_held b (keyHeld_iff.2 hheld), fun hfree => ⟨fun x => ?_, ?_⟩⟩
  · have hnot : keyHeld a s = false := by
      rw [Bool.eq_false_iff, Ne, keyHeld_iff]
      rintro ⟨k, hmem, ha⟩
      exact absurd (hfree k hmem) (Nat.not_le.2 ha)
    rw [hostMove, hostPlaceKey_free b hnot, keyRead_write]
  · exact hostMove_key_wf (.placeKey a b)

/-! No event changes a key byte that the host must keep. -/

theorem hostSend_KEY (w : Word) (s : State) : (hostSend w s).KEY = s.KEY := by
  unfold hostSend
  split_ifs <;> rfl

theorem keyRead_hostMove_of_held {a : Byte} {s : State} (h : keyHeld a s = true) (m : HostMove) :
    keyRead (hostMove m s) a = keyRead s a := by
  cases m with
  | send w => exact congrFun (keyRead_of_KEY (hostSend_KEY w s)) a
  | take | reset => rfl
  | placeKey x b =>
    rw [hostMove]
    cases hx : keyHeld x s with
    | true => rw [hostPlaceKey_held b hx]
    | false =>
      have hne : a ≠ x := by rintro rfl; rw [h] at hx; cases hx
      rw [hostPlaceKey_free b hx, keyRead_write, if_neg hne]

theorem keyRead_applyEvent_of_held {a : Byte} {s : State} (h : keyHeld a s = true) (e : Event) :
    keyRead (applyEvent e s) a = keyRead s a := by
  cases e with
  | engine =>
    obtain ⟨t, ht⟩ := step_answers s
    rw [applyEvent_engine ht, keyRead_of_KEY (step_outside ht).1]
  | host m => exact keyRead_hostMove_of_held h m

/-- A word the engine has not answered is one the host has not received the response of (R217). -/
theorem EngineInv.mem_sent_of_mem_pending {s : State} (h : EngineInv s) {w : Word} (hw : w ∈ pending s) :
    w ∈ s.sent :=
  List.mem_of_mem_drop (h.pairs.rest ▸ hw)

/-- A START in CMD, or in CMDR while it runs, is not answered. -/
theorem mem_pending_of_start {s : State} {k : Klen} (h : startWord k ∈ s.CMD ∨
    (s.CMDR = startWord k ∧ s.SEQ ∈ [SeqCode.chk, .init, .kbeg, .kstep, .prst])) : startWord k ∈ pending s := by
  rcases h with hcmd | ⟨hcmdr, hq⟩
  · exact List.mem_append_right _ hcmd
  · have hbusy : s.SEQ.isWait = false := by revert hq; cases s.SEQ <;> decide
    rw [pending_of_busy hbusy, hcmdr]
    exact List.mem_cons_self

/-- Settles O55: a START not answered is in `sent`, so the host keeps its key bytes. -/
theorem keyFixedWhileStartRuns : Obligations.KeyFixedWhileStartRuns := by
  intro s k hs hstart e a ha
  have hsent := hs.engineInv.mem_sent_of_mem_pending (mem_pending_of_start hstart)
  exact keyRead_applyEvent_of_held (keyHeld_iff.2 ⟨k, hsent, ha⟩) e

end Sys2Proof.Machine
end

/-! ### The encoding of instructions -/

section
namespace Sys2Proof.Machine

theorem decode_encode (i : Instr) : decode (encode i) = .ok i := by
  cases i with
  | start k => exact decodeCommand_startWord k
  | data d => exact decodeCommand_dataWord d
  | endCall => exact decodeCommand_endWord
  | _ => rfl

/-- Settles O1: the fields of an encoded command are its operands, and each micro-operation has its own code. -/
theorem decodeOfEncodeIsIdentity : Obligations.DecodeOfEncodeIsIdentity := decode_encode

theorem encode_uop (q : SeqCode) : encode q.uop = .uop4 q.bits := by cases q <;> rfl

/-- Settles O2: a legal word is the word of the command it decodes to, a legal code that of its micro-operation. -/
theorem encodeOfDecodeIsIdentity : Obligations.EncodeOfDecodeIsIdentity := by
  intro c i h
  cases c with
  | cmd16 w => rcases decodeCommand_ok h with ⟨k, rfl, rfl⟩ | ⟨d, rfl, rfl⟩ | ⟨rfl, rfl⟩ <;> rfl
  | uop4 c =>
    obtain ⟨q, rfl, rfl⟩ := decodeUop_ok h
    exact encode_uop q

/-! The rows of the opcode map (R93): which words, and which codes, decode to an instruction. -/

theorem decodeCommand_eq_start_iff {w : Word} {k : Klen} : decodeCommand w = .ok (.start k) ↔ w = startWord k :=
  ⟨eq_startWord, by rintro rfl; exact decodeCommand_startWord k⟩

theorem decodeCommand_eq_data_iff {w : Word} {d : Byte} : decodeCommand w = .ok (.data d) ↔ w = dataWord d :=
  ⟨eq_dataWord, by rintro rfl; exact decodeCommand_dataWord d⟩

theorem decodeCommand_eq_endCall_iff {w : Word} : decodeCommand w = .ok .endCall ↔ w = endWord :=
  ⟨eq_endWord, by rintro rfl; exact decodeCommand_endWord⟩

/-- START's row: its match under its mask, and the field KLEN. -/
theorem eq_startWord_iff {w : Word} {k : Klen} :
    w = startWord k ↔ w &&& 0xF000#16 = 0x1000#16 ∧ k.toNat = w.toNat % 4096 := by
  have hk := k.isLt
  rw [← BitVec.toNat_inj, ← BitVec.toNat_inj, startWord_toNat, and_startMask_toNat, BitVec.toNat_ofNat]
  omega

/-- DATA's row: its match under its mask, and the field DIN. -/
theorem eq_dataWord_iff {w : Word} {d : Byte} :
    w = dataWord d ↔ w &&& 0xFF00#16 = 0x2000#16 ∧ d.toNat = w.toNat % 256 := by
  have hd := d.isLt
  rw [← BitVec.toNat_inj, ← BitVec.toNat_inj, dataWord_toNat, and_dataMask_toNat, BitVec.toNat_ofNat]
  omega

/-- END's row: its mask keeps every bit. -/
theorem eq_endWord_iff {w : Word} : w = endWord ↔ w &&& 0xFFFF#16 = 0x3000#16 := by
  rw [show w &&& 0xFFFF#16 = w from BitVec.and_allOnes, endWord]

theorem exists_eq_startWord_iff {w : Word} : (∃ k, w = startWord k) ↔ w &&& 0xF000#16 = 0x1000#16 :=
  ⟨fun ⟨_, h⟩ => (eq_startWord_iff.1 h).1, fun h => ⟨argField w, eq_startWord_iff.2 ⟨h, argField_toNat w⟩⟩⟩

theorem exists_eq_dataWord_iff {w : Word} : (∃ d, w = dataWord d) ↔ w &&& 0xFF00#16 = 0x2000#16 :=
  ⟨fun ⟨_, h⟩ => (eq_dataWord_iff.1 h).1, fun h => ⟨dinField w, eq_dataWord_iff.2 ⟨h, dinField_toNat w⟩⟩⟩

/-- A word is legal exactly if it is the word of a command. -/
theorem exists_decodeCommand_eq_ok_iff {w : Word} :
    (∃ i, decodeCommand w = .ok i) ↔ (∃ k, w = startWord k) ∨ (∃ d, w = dataWord d) ∨ w = endWord := by
  constructor
  · rintro ⟨i, h⟩
    rcases decodeCommand_ok h with ⟨k, -, hw⟩ | ⟨d, -, hw⟩ | ⟨-, hw⟩
    · exact .inl ⟨k, hw⟩
    · exact .inr (.inl ⟨d, hw⟩)
    · exact .inr (.inr hw)
  · rintro (⟨k, rfl⟩ | ⟨d, rfl⟩ | rfl)
    · exact ⟨_, decodeCommand_startWord k⟩
    · exact ⟨_, decodeCommand_dataWord d⟩
    · exact ⟨_, decodeCommand_endWord⟩

theorem exists_decodeCommand_eq_error_iff {w : Word} :
    (∃ r, decodeCommand w = .error r) ↔ ¬ ∃ i, decodeCommand w = .ok i := by
  cases decodeCommand w <;> simp

/-- A word that meets no row is illegal, and no other word is. -/
theorem illegal_iff_no_row {w : Word} :
    (∃ r, decodeCommand w = .error r) ↔
      w &&& 0xF000#16 ≠ 0x1000#16 ∧ w &&& 0xFF00#16 ≠ 0x2000#16 ∧ w &&& 0xFFFF#16 ≠ 0x3000#16 := by
  rw [exists_decodeCommand_eq_error_iff, exists_decodeCommand_eq_ok_iff, exists_eq_startWord_iff,
    exists_eq_dataWord_iff, eq_endWord_iff, not_or, not_or]

theorem decodeUop_eq_ok_iff {c : SeqBits} {i : Instr} :
    decodeUop c = .ok i ↔ ∃ q : SeqCode, q.bits = c ∧ q.uop = i :=
  ⟨decodeUop_ok, by rintro ⟨q, rfl, rfl⟩; exact decodeUop_bits q⟩

/-- The ten codes of SEQ, in the order of their numbers (R26). -/
def SeqCode.all : List SeqCode := [.idle, .chk, .init, .kbeg, .kstep, .prst, .ready, .pstep, .xorb, .endc]

theorem SeqCode.mem_all (q : SeqCode) : q ∈ SeqCode.all := by cases q <;> decide

/-- SEQ's codes as the numbers and micro-operations of the opcode map. -/
theorem decodeUop_eq_ok_iff_mem {c : SeqBits} {i : Instr} :
    decodeUop c = .ok i ↔ (c.toNat, i) ∈ SeqCode.all.map fun q => (q.bits.toNat, q.uop) := by
  simp [decodeUop_eq_ok_iff, SeqCode.mem_all, BitVec.toNat_inj]

/-- Settles O3, a row at a time. -/
theorem opcodeMapRows : Obligations.OpcodeMapRows :=
  ⟨fun _ _ => decodeCommand_eq_start_iff.trans eq_startWord_iff,
    fun _ _ => decodeCommand_eq_data_iff.trans eq_dataWord_iff,
    fun _ => decodeCommand_eq_endCall_iff.trans eq_endWord_iff, fun _ => illegal_iff_no_row,
    fun _ _ => decodeUop_eq_ok_iff_mem⟩

/-! The three kinds of illegal word (R84). -/

/-- The field tests behind each kind of rejection, which exclude each other. -/
theorem decodeCommand_eq_error_iff {w : Word} {r : Reject} :
    decodeCommand w = .error r ↔
      (opcField w ≠ 1#4 ∧ opcField w ≠ 2#4 ∧ opcField w ≠ 3#4 ∧ r = .reservedOpcode (opcField w)) ∨
      (opcField w = 2#4 ∧ mbzField w ≠ 0#4 ∧ r = .dataFieldNotZero) ∨
      (opcField w = 3#4 ∧ argField w ≠ 0#12 ∧ r = .endFieldNotZero) := by
  unfold decodeCommand
  split_ifs <;> simp_all [@eq_comm _ r]

theorem opcField_eq_iff {w : Word} {c : SeqBits} : opcField w = c ↔ w.toNat / 4096 = c.toNat := by
  rw [← BitVec.toNat_inj, opcField_toNat]

theorem opcField_eq_ofNat (w : Word) : opcField w = BitVec.ofNat 4 (w.toNat / 4096) := by
  rw [← opcField_toNat, BitVec.ofNat_toNat, BitVec.setWidth_eq]

/-- Settles O4: each kind of rejection is a test of the fields, and a field is a digit of the word. -/
theorem illegalWordKinds : Obligations.IllegalWordKinds := by
  intro w
  have hmbz : mbzField w = 0#4 ↔ w.toNat / 256 % 16 = 0 := by rw [← BitVec.toNat_inj, mbzField_toNat]; rfl
  have harg : argField w = 0#12 ↔ w.toNat % 4096 = 0 := by rw [← BitVec.toNat_inj, argField_toNat]; rfl
  rw [← opcField_eq_ofNat]
  simp only [decodeCommand_eq_error_iff, ne_eq, opcField_eq_iff, hmbz, harg, BitVec.toNat_ofNat, reduceCtorEq, and_true,
    and_false, or_false, false_or]
  omega

/-- Settles O5: the encoder's words, written out, decode to their commands; the others are evaluated. -/
theorem listedWordsDecode : Obligations.ListedWordsDecode :=
  ⟨decodeCommand_startWord 3, decodeCommand_startWord 0, decodeCommand_startWord 4095,
    decodeCommand_dataWord 0x50, decodeCommand_dataWord 0xFF, decodeCommand_endWord,
    decodeCommand_eq_error_iff.2 (by decide), decodeCommand_eq_error_iff.2 (by decide),
    decodeCommand_eq_error_iff.2 (by decide), decodeUop_bits .kstep, decodeUop_bits .xorb⟩

/-- The words of R87, written out. -/
theorem responseWord_listed (r : Response) :
    responseWord r = 0x1000 ∨ (∃ v : Byte, responseWord r = 0x2000#16 + v.setWidth 16) ∨ responseWord r = 0xF001 ∨
      responseWord r = 0xF002 ∨ responseWord r = 0xF003 := by
  cases r with
  | ack => exact .inl rfl
  | byte v => exact .inr (.inl ⟨v, rfl⟩)
  | err e => cases e <;> simp [responseWord_invalidKey, responseWord_protocol, responseWord_illegalCommand]

/-- Settles O26: what a step appends to RSP is the word of a response. -/
theorem onlyListedResponsesEmitted : Obligations.OnlyListedResponsesEmitted := by
  intro s t h
  rcases (step_case h).emits with ⟨hr, -⟩ | ⟨-, ⟨r, hr⟩, -⟩
  · exact .inl hr
  · exact .inr ⟨responseWord r, hr, responseWord_listed r⟩

end Sys2Proof.Machine
end

/-! ### The assembler -/

section
namespace Sys2Proof.Machine

open Asm

/-! Which lines are in range. -/

@[simp] theorem inRange_lit (kl : Option Nat) (max n : Nat) : (AsmNum.lit n).inRange kl max = decide (n ≤ max) := rfl

@[simp] theorem inRange_keylen_some (L max : Nat) : AsmNum.keylen.inRange (some L) max = decide (L ≤ max) := rfl

theorem allBytes_iff {bs : List Nat} : allBytes bs = true ↔ ∀ b ∈ bs, b ≤ 255 := by simp [allBytes]

theorem allBytes_eq_false {bs : List Nat} (h : ∃ b ∈ bs, 255 < b) : allBytes bs = false := by
  obtain ⟨b, hmem, hb⟩ := h
  rw [Bool.eq_false_iff, Ne, allBytes_iff]
  exact fun hall => absurd (hall b hmem) (Nat.not_le.2 hb)

/-! What a line makes. -/

/-- A line out of range is an error (R90). -/
theorem assembleLine_of_not_wf {kl : Option Nat} {l : AsmLine} (h : l.wf kl = false) : assembleLine kl l = none := by
  simp [assembleLine, h]

theorem assembleLine_start {n : Nat} (kl : Option Nat) (h : n ≤ 4095) :
    assembleLine kl (.start (.lit n)) = some [.send (startWord (BitVec.ofNat 12 n))] := by
  simp [assembleLine, AsmLine.wf, AsmNum.value, h]

theorem assembleLine_data {n : Nat} (kl : Option Nat) (h : n ≤ 255) :
    assembleLine kl (.data (.lit n)) = some [.send (dataWord (BitVec.ofNat 8 n))] := by
  simp [assembleLine, AsmLine.wf, AsmNum.value, h]

theorem assembleLine_word {n : Nat} (kl : Option Nat) (h : n ≤ 65535) :
    assembleLine kl (.word (.lit n)) = some [.send (BitVec.ofNat 16 n)] := by
  simp [assembleLine, AsmLine.wf, AsmNum.value, h]

theorem assembleLine_key {bs : List Nat} (kl : Option Nat) (h : ∀ b ∈ bs, b ≤ 255) :
    assembleLine kl (.key bs) = some [.placeKey (toBytes bs)] := by
  simp [assembleLine, AsmLine.wf, allBytes_iff.2 h]

theorem assembleLine_datas {bs : List Nat} (kl : Option Nat) (h : ∀ b ∈ bs, b ≤ 255) :
    assembleLine kl (.datas bs) = some ((datasWords bs).map .send) := by
  simp [assembleLine, AsmLine.wf, allBytes_iff.2 h]

theorem assembleLine_transform {L : Nat} {bs : List Nat} (hL : L ≤ 4095) (h : ∀ b ∈ bs, b ≤ 255) :
    assembleLine (some L) (.transform bs) =
      some [.call (startWord (BitVec.ofNat 12 L)) (datasWords bs ++ [endWord])] := by
  simp [assembleLine, AsmLine.wf, hL, allBytes_iff.2 h]

/-! The words and bytes of a line, as numbers. -/

theorem startWord_ofNat_toNat {n : Nat} (h : n ≤ 4095) : (startWord (BitVec.ofNat 12 n)).toNat = 0x1000 + n := by
  rw [startWord_toNat, BitVec.toNat_ofNat, Nat.mod_eq_of_lt (by omega)]

theorem dataWord_ofNat_toNat {n : Nat} (h : n ≤ 255) : (dataWord (BitVec.ofNat 8 n)).toNat = 0x2000 + n := by
  rw [dataWord_toNat, BitVec.toNat_ofNat, Nat.mod_eq_of_lt (by omega)]

theorem toBytes_toNat {bs : List Nat} (h : ∀ b ∈ bs, b ≤ 255) : (toBytes bs).map BitVec.toNat = bs := by
  rw [toBytes, List.map_map]
  refine (List.map_congr_left fun b hb => ?_).trans (List.map_id bs)
  exact (BitVec.toNat_ofNat b 8).trans (Nat.mod_eq_of_lt (Nat.lt_succ_of_le (h b hb)))

theorem datasWords_toNat {bs : List Nat} (h : ∀ b ∈ bs, b ≤ 255) :
    (datasWords bs).map BitVec.toNat = bs.map fun b => 0x2000 + b := by
  rw [datasWords, toBytes, List.map_map, List.map_map]
  exact List.map_congr_left fun b hb => dataWord_ofNat_toNat (h b hb)

theorem flatMap_itemWords_send (ws : List Word) : (ws.map AsmItem.send).flatMap itemWords = ws := by
  induction ws with
  | nil => rfl
  | cons w ws ih => simp [itemWords, ih]

/-- TRANSFORM is START KEYLEN, what DATAS gives for the same bytes, and END (R92). -/
theorem assemble_transform_and_datas {L : Nat} {bs : List Nat} (hL : L ≤ 4095) (h : ∀ b ∈ bs, b ≤ 255) :
    ∃ ws : List Word, ws.map BitVec.toNat = (0x1000 + L) :: (bs.map fun b => 0x2000 + b) ++ [0x3000] ∧
      (assembleLine (some L) (.transform bs)).map (fun is => is.flatMap itemWords) = some ws ∧
      (assembleLine (some L) (.datas bs)).map (fun is => is.flatMap itemWords) = some (ws.tail.dropLast) := by
  refine ⟨startWord (BitVec.ofNat 12 L) :: datasWords bs ++ [endWord], ?words, ?transform, ?datas⟩
  case words => simp [startWord_ofNat_toNat hL, datasWords_toNat h, endWord]
  case transform => simp [assembleLine_transform hL h, itemWords]
  case datas => simp [assembleLine_datas _ h, flatMap_itemWords_send]

/-- Settles O57: each line in range by its equation, and the lines out of range by their check. -/
theorem assemblerMakesTheCommands : Obligations.AssemblerMakesTheCommands := by
  refine ⟨?start, ?data, ?endCall, ?word, ?outOfRange, fun L bs => assemble_transform_and_datas⟩
  case start =>
    exact fun kl n h => ⟨_, assembleLine_start kl h, startWord_ofNat_toNat h, decodeCommand_startWord _⟩
  case data =>
    exact fun kl n h => ⟨_, assembleLine_data kl h, dataWord_ofNat_toNat h, decodeCommand_dataWord _⟩
  case endCall => exact fun kl => ⟨endWord, rfl, rfl, decodeCommand_endWord⟩
  case word => exact fun kl n h => ⟨_, assembleLine_word kl h, Nat.mod_eq_of_lt (by omega)⟩
  case outOfRange =>
    intro kl n
    refine ⟨fun h => assembleLine_of_not_wf ?_, fun h => assembleLine_of_not_wf ?_,
      fun h => assembleLine_of_not_wf ?_⟩ <;> simpa [AsmLine.wf] using h

/-! Programs. -/

/-- A program is its first line's items and then those of the rest, under the KEYLEN the line leaves. -/
theorem assembleFrom_cons {kl : Option Nat} {l : AsmLine} {is : List AsmItem} (ls : List AsmLine)
    (h : assembleLine kl l = some is) :
    assembleFrom kl (l :: ls) = (assembleFrom (keylenAfter kl l) ls).map (is ++ ·) := by
  rw [assembleFrom, h]
  cases assembleFrom (keylenAfter kl l) ls <;> rfl

theorem assembleFrom_cons_of_error {kl : Option Nat} {l : AsmLine} (ls : List AsmLine)
    (h : assembleLine kl l = none) : assembleFrom kl (l :: ls) = none := by
  rw [assembleFrom, h]

/-- Only `.key` changes the KEYLEN in force (R91). -/
theorem keylenAfter_of_ne_key {kl : Option Nat} {l : AsmLine} (h : ∀ bs, l ≠ .key bs) : keylenAfter kl l = kl := by
  cases l with
  | key bs => exact absurd rfl (h bs)
  | _ => rfl

/-! Placing a key. -/

/-- An address of no START that is unanswered is the host's to change (R54). -/
theorem keyHeld_eq_false {a : Byte} {s : State} (h : ∀ k, startWord k ∈ s.sent → min k.toNat 256 ≤ a.toNat) :
    keyHeld a s = false := by
  rw [Bool.eq_false_iff, Ne, keyHeld_iff]
  rintro ⟨k, hmem, ha⟩
  exact absurd (h k hmem) (Nat.not_le.2 ha)

theorem hostPlaceKey_sent (a b : Byte) (s : State) : (hostPlaceKey a b s).sent = s.sent := by
  unfold hostPlaceKey
  split_ifs <;> rfl

/-- What an address the host may change reads as after a byte is placed there or elsewhere. -/
theorem keyRead_hostPlaceKey {x : Byte} {s : State} (hx : keyHeld x s = false) (a b : Byte) :
    keyRead (hostPlaceKey a b s) x = if x = a then b else keyRead s x := by
  cases ha : keyHeld a s with
  | false => rw [hostPlaceKey_free b ha, keyRead_write]
  | true =>
    have hne : x ≠ a := by rintro rfl; rw [hx] at ha; cases ha
    rw [hostPlaceKey_held b ha, if_neg hne]

/-- Bytes placed from address `n` upward: an address from `n` on that the host may change reads as its byte of the list, if
there is one, and an address below `n` reads as before. -/
theorem keyRead_placeKeyFrom {x : Byte} (ks : List Byte) (n : Nat) {s : State} (hx : keyHeld x s = false) :
    keyRead (placeKeyFrom n ks s) x =
      if n ≤ x.toNat then (ks[x.toNat - n]?).getD (keyRead s x) else keyRead s x := by
  induction ks generalizing n s with
  | nil => simp [placeKeyFrom]
  | cons b ks ih =>
    have hlt := x.isLt
    by_cases hn : n < 256
    · have hx' : keyHeld x (hostPlaceKey (BitVec.ofNat 8 n) b s) = false := by
        rw [keyHeld, hostPlaceKey_sent]; exact hx
      have heq : x = BitVec.ofNat 8 n ↔ x.toNat = n := by
        rw [← BitVec.toNat_inj, BitVec.toNat_ofNat, Nat.mod_eq_of_lt hn]
      rw [placeKeyFrom, if_pos hn, ih (n + 1) hx', keyRead_hostPlaceKey hx]
      simp only [heq]
      rcases Nat.lt_trichotomy x.toNat n with h | h | h
      · rw [if_neg (by omega : ¬ n + 1 ≤ x.toNat), if_neg h.ne, if_neg (Nat.not_le.2 h)]
      · rw [if_neg (by omega : ¬ n + 1 ≤ x.toNat), if_pos h, if_pos h.ge, h, Nat.sub_self]; rfl
      · rw [if_pos (by omega : n + 1 ≤ x.toNat), if_neg h.ne', if_pos h.le, List.getElem?_cons,
          if_neg (by omega), Nat.sub_sub]
    · rw [placeKeyFrom, if_neg hn, if_neg (by omega)]

/-- Settles O60: a line's equation or its range check for each line, and the placing by induction on the bytes. -/
theorem assemblerKeyDirectiveAndOtherLines : Obligations.AssemblerKeyDirectiveAndOtherLines := by
  refine ⟨?key, ?placing, fun _ => rfl, fun _ => ⟨rfl, rfl, rfl⟩, ?noKeylen, ?badItem, ?longKeylen, fun _ => rfl,
    ?cons, fun _ _ ls => assembleFrom_cons_of_error ls⟩
  case key =>
    intro kl bs ls h
    have hline := assembleLine_key kl h
    exact ⟨toBytes bs, toBytes_toNat h, hline, rfl, assembleFrom_cons ls hline⟩
  case placing =>
    intro ks s a h
    simpa using keyRead_placeKeyFrom ks 0 (keyHeld_eq_false h)
  case noKeylen =>
    intro bs
    refine ⟨?_, ?_, ?_, ?_⟩ <;> exact assembleLine_of_not_wf rfl
  case badItem =>
    intro kl bs h
    have hbad := allBytes_eq_false h
    refine ⟨?_, ?_, ?_⟩ <;> exact assembleLine_of_not_wf (by simp [AsmLine.wf, hbad])
  case longKeylen =>
    intro L bs h
    exact assembleLine_of_not_wf (by simp [AsmLine.wf, h])
  case cons =>
    intro kl l ls is hne h
    rw [assembleFrom_cons ls h, keylenAfter_of_ne_key hne]

end Sys2Proof.Machine
end

/-! ### What DISPATCH and the commands do -/

section
namespace Sys2Proof.Machine

variable {s : State} {w : Word} {rest : List Word}

/-! DISPATCH (R110), a lemma a path. -/

/-- The refusal of the oldest word, with room in RSP (R184). -/
theorem refuseWord_oldest (e : ErrCode) (hc : s.CMD = w :: rest) (hr : rspFull s = false) :
    refuseWord e w s = { s with CMD := rest, CMDR := w, RSP := s.RSP ++ [responseWord (.err e)] } := by
  rw [refuseWord_room e w hr, hc, List.tail_cons]

theorem dispatch_admitted {code go : SeqCode} {admits : Instr → Option SeqCode} {c : Instr} (hq : s.SEQ = code)
    (hc : s.CMD = w :: rest) (hd : decodeCommand w = .ok c) (ha : admits c = some go) :
    dispatch code admits s = { s with CMD := rest, CMDR := w, SEQ := go } := by
  simp [dispatch, hq, hc, hd, ha, acceptWord, cmdTake]

theorem dispatch_unadmitted {code : SeqCode} {admits : Instr → Option SeqCode} {c : Instr} (hq : s.SEQ = code)
    (hc : s.CMD = w :: rest) (hd : decodeCommand w = .ok c) (ha : admits c = none) (hr : rspFull s = false) :
    dispatch code admits s = { s with CMD := rest, CMDR := w, RSP := s.RSP ++ [0xF002] } := by
  rw [← responseWord_protocol, ← refuseWord_oldest .protocol hc hr]
  simp [dispatch, hq, hc, hd, ha]

theorem dispatch_illegal {code : SeqCode} {admits : Instr → Option SeqCode} (hq : s.SEQ = code)
    (hc : s.CMD = w :: rest) (hd : ∃ r, decodeCommand w = .error r) (hr : rspFull s = false) :
    dispatch code admits s = { s with CMD := rest, CMDR := w, RSP := s.RSP ++ [0xF003] } := by
  obtain ⟨r, hd⟩ := hd
  rw [← responseWord_illegalCommand, ← refuseWord_oldest .illegalCommand hc hr]
  simp [dispatch, hq, hc, hd]

/-- Settles O9: the paths of DISPATCH, and what each of its codes admits. -/
theorem dispatchEffect : Obligations.DispatchEffect := by
  refine fun s => ⟨fun hc => ⟨fun _ => congrArg _ (dispatch_nil hc), fun _ => congrArg _ (dispatch_nil hc)⟩,
    fun w rest hc => ⟨fun hq => ⟨?start, ?_, ?_⟩, fun hq => ⟨?data, ?endCall, ?_, ?_⟩⟩⟩
  case start => exact fun k hd => congrArg _ (dispatch_admitted hq hc hd rfl)
  case data => exact fun d hd => congrArg _ (dispatch_admitted hq hc hd rfl)
  case endCall => exact fun hd => congrArg _ (dispatch_admitted hq hc hd rfl)
  · rintro (⟨d, hd⟩ | hd) hr <;> exact congrArg _ (dispatch_unadmitted hq hc hd rfl hr)
  · exact fun hd hr => congrArg _ (dispatch_illegal hq hc hd hr)
  · exact fun k hd hr => congrArg _ (dispatch_unadmitted hq hc hd rfl hr)
  · exact fun hd hr => congrArg _ (dispatch_illegal hq hc hd hr)

/-! The commands (R112 to R114). -/

/-- The key bytes of START's iterations (R112). -/
def startKeyByte (k : Klen) (s : State) (i : Nat) : Byte := keyRead s (keyAddr k.toNat (BitVec.ofNat 8 i))

theorem startEffect_eq {k : Klen} (hk : k ≠ 0) (s : State) :
    startEffect k s =
      { s with S := ksa (startKeyByte k s), I := 0, J := 0, SEQ := .ready, RSP := s.RSP ++ [0x1000] } :=
  startEffect_pos hk

/-- The address of an iteration's key byte (R53, R134). -/
theorem startKeyAddr_toNat {k : Klen} (hk : k ≠ 0) {i : Nat} (hi : i < 256) :
    (keyAddr k.toNat (BitVec.ofNat 8 i)).toNat = i % k.toNat := by
  have hpos : k.toNat ≠ 0 := fun h => hk (BitVec.eq_of_toNat_eq h)
  rw [keyAddr_toNat _ hpos, BitVec.toNat_ofNat, Nat.mod_eq_of_lt hi]

/-- Settles O21 (`startEffect` is the model's function): the 256 iterations are those of `ksaTrace`. -/
theorem startEffectHolds : Obligations.StartEffect := by
  refine fun k s hr => ⟨?empty, ?opens, fun hq => by rw [exec_start_ready k hq hr, responseWord_protocol]; rfl⟩
  case empty =>
    rintro hq rfl
    rw [exec_start_idle 0 hq hr, startEffect_zero, ← responseWord_invalidKey, ← hq]
    rfl
  case opens =>
    intro hq hk
    refine ⟨fun n => slot (ksaTrace (startKeyByte k s) n).1, fun n => (ksaTrace (startKeyByte k s) n).2,
      fun i => keyAddr k.toNat (BitVec.ofNat 8 i), ksa (startKeyByte k s), slot_identity, rfl,
      fun i hi => ⟨startKeyAddr_toNat hk hi, rfl, fun x => ?_⟩, fun x => ?_, ?_⟩
    · exact slot_swap _ _ _ x
    · rw [ksa_eq_ksaTrace]
    · rw [exec_start_idle k hq hr, startEffect_eq hk]
      rfl

/-- Settles O22 (`dataEffect` is the model's function): `generate` is steps a to d. -/
theorem dataEffectHolds : Obligations.DataEffect := by
  refine fun d s hr => ⟨fun hq => ?_, fun hq => by rw [exec_data_idle d hq hr, responseWord_protocol]; rfl⟩
  refine ⟨_, _, (generate s).Z, (generate s).S, rfl, rfl, slot_swap _ _ _, rfl, ?_⟩
  rw [exec_data_ready d hq hr, dataEffect, ← hq]
  rfl

/-- Settles O23 (`endEffect` is the model's function): the discard gives the values left open. -/
theorem endEffectHolds : Obligations.EndEffect := by
  refine fun s hr => ⟨fun hq => ⟨_, _, _, _, _, exec_end_ready hq hr⟩, fun hq => ?_⟩
  rw [exec_end_idle hq hr, responseWord_protocol]
  rfl

end Sys2Proof.Machine
end

/-! ### The two levels agree -/

section
namespace Sys2Proof.Machine

variable {s : State} {w : Word} {rest : List Word}

/-- While a command runs an engine event is the micro-operation of SEQ (R88). -/
theorem applyEvent_uop {t : State} {q : SeqCode} (hq : s.SEQ = q) (hbusy : q.isWait = false)
    (h : exec q.uop s = .next t) : applyEvent .engine s = t :=
  applyEvent_engine (by rw [step_busy (hq ▸ hbusy), hq, h])

theorem applyEvent_micro {t : State} {q : SeqCode} (hl : s.level = .micro) (hq : s.SEQ = q)
    (h : exec q.uop s = .next t) : applyEvent .engine s = t :=
  applyEvent_engine (by rw [step_micro hl, hq, h])

theorem applyEvent_admitStart {k : Klen} (hl : s.level = .micro) (hq : s.SEQ = .idle)
    (hc : s.CMD = startWord k :: rest) :
    applyEvent .engine s = { s with CMD := rest, CMDR := startWord k, SEQ := .chk } :=
  applyEvent_micro hl hq (congrArg _ (dispatch_admitted hq hc (decodeCommand_startWord k) rfl))

theorem applyEvent_admitData {d : Byte} (hl : s.level = .micro) (hq : s.SEQ = .ready)
    (hc : s.CMD = dataWord d :: rest) :
    applyEvent .engine s = { s with CMD := rest, CMDR := dataWord d, SEQ := .pstep } :=
  applyEvent_micro hl hq (congrArg _ (dispatch_admitted hq hc (decodeCommand_dataWord d) rfl))

theorem applyEvent_admitEnd (hl : s.level = .micro) (hq : s.SEQ = .ready) (hc : s.CMD = endWord :: rest) :
    applyEvent .engine s = { s with CMD := rest, CMDR := endWord, SEQ := .endc } :=
  applyEvent_micro hl hq (congrArg _ (dispatch_admitted hq hc decodeCommand_endWord rfl))

/-! The micro-operations of each command, from the first after DISPATCH. -/

theorem keyEmpty_startWord_iff {k : Klen} : keyEmpty (startWord k) = true ↔ k = 0 := by
  simp [keyEmpty, klenOf, ← BitVec.toNat_inj]

theorem applyEvent_chk_empty (hq : s.SEQ = .chk) (hcmdr : s.CMDR = startWord 0) (hr : rspFull s = false) :
    applyEvent .engine s = startEffect 0 s :=
  applyEvent_uop hq rfl (by
    rw [SeqCode.uop, exec, execChkkey, hcmdr, if_pos (keyEmpty_startWord_iff.2 rfl), hr, startEffect_zero]; rfl)

theorem applyEvent_chk_pass {k : Klen} (hk : k ≠ 0) (hq : s.SEQ = .chk) (hcmdr : s.CMDR = startWord k) :
    applyEvent .engine s = { s with SEQ := .init } :=
  applyEvent_uop hq rfl (by
    rw [SeqCode.uop, exec, execChkkey, hcmdr, if_neg (mt keyEmpty_startWord_iff.1 hk)])

/-- The key schedule whole: from SINIT on 258 micro-operations leave phase 1's permutation in S (R130). -/
theorem runSteps_schedule {k : Klen} (hq : s.SEQ = .init) (hcmdr : s.CMDR = startWord k) :
    ∃ j, runSteps (2 + 256) s = { s with S := ksa (startKeyByte k s), I := 0, J := j, SEQ := .prst } := by
  have hkbeg : runSteps 2 s = { s with S := identity, J := 0, I := 0, SEQ := .kstep } := by
    rw [runSteps, applyEvent_uop hq rfl rfl]
    exact applyEvent_uop rfl rfl rfl
  obtain ⟨j, hj⟩ := runSteps_sweep 255 0 { s with S := identity, J := 0, I := 0, SEQ := .kstep } rfl rfl rfl
  refine ⟨j, ?_⟩
  rw [runSteps_add, hkbeg, hj, hcmdr, klenOf, argField_startWord]
  rfl

theorem applyEvent_prst (hq : s.SEQ = .prst) (hr : rspFull s = false) :
    applyEvent .engine s = { rspEmit .ack s with I := 0, J := 0, SEQ := .ready } :=
  applyEvent_uop hq rfl (by simp [SeqCode.uop, exec, execPrst, hr])

/-- From CHK a START that names a key runs to its effect in 260 micro-operations. -/
theorem runSteps_chk {k : Klen} (hk : k ≠ 0) (hq : s.SEQ = .chk) (hcmdr : s.CMDR = startWord k)
    (hr : rspFull s = false) : runSteps (1 + ((2 + 256) + 1)) s = startEffect k s := by
  have hchk : runSteps 1 s = { s with SEQ := .init } := applyEvent_chk_pass hk hq hcmdr
  have hkey : startKeyByte k { s with SEQ := .init } = startKeyByte k s := rfl
  obtain ⟨j, hj⟩ := runSteps_schedule (s := { s with SEQ := .init }) rfl hcmdr
  rw [runSteps_add, hchk, runSteps_add, hj, hkey, startEffect_eq hk]
  -- PRST is not to compute the schedule.
  generalize ksa (startKeyByte k s) = T
  exact applyEvent_prst rfl hr

theorem applyEvent_pstep (hq : s.SEQ = .pstep) : applyEvent .engine s = { generate s with SEQ := .xorb } :=
  applyEvent_uop hq rfl rfl

theorem applyEvent_xorb (hq : s.SEQ = .xorb) (hr : rspFull s = false) :
    applyEvent .engine s = { rspEmit (.byte (dinOf s.CMDR ^^^ s.Z)) s with SEQ := .ready } :=
  applyEvent_uop hq rfl (by simp [SeqCode.uop, exec, execXorb, hr])

/-- From PSTEP a DATA runs to its effect in two micro-operations. -/
theorem runSteps_pstep {d : Byte} (hq : s.SEQ = .pstep) (hcmdr : s.CMDR = dataWord d) (hr : rspFull s = false) :
    runSteps 2 s = dataEffect d s := by
  have hxorb := applyEvent_xorb (s := { generate s with SEQ := .xorb }) rfl hr
  rw [runSteps, applyEvent_pstep hq, runSteps, hxorb, runSteps, generate_CMDR, hcmdr, dinOf, dinField_dataWord]
  rfl

theorem applyEvent_endc (hq : s.SEQ = .endc) (hr : rspFull s = false) : applyEvent .engine s = endEffect s :=
  applyEvent_uop hq rfl (by simp [SeqCode.uop, exec, execEndc, endEffect, hr])

/-! The micro-operations of each command, as many as R222 says. -/

/-- START's effect sets SEQ, whatever it was (R112). -/
theorem startEffect_setSEQ (k : Klen) (q : SeqCode) (s : State) :
    startEffect k { s with SEQ := q } = startEffect k s := by
  by_cases hk : k = 0
  · subst hk; rw [startEffect_zero, startEffect_zero]; rfl
  · rw [startEffect_eq hk, startEffect_eq hk]; rfl

/-- START's effect does not look at the level (R14). -/
theorem startEffect_setLevel (k : Klen) (l : Level) (s : State) :
    startEffect k { s with level := l } = { startEffect k s with level := l } := by
  by_cases hk : k = 0
  · subst hk; rw [startEffect_zero, startEffect_zero]; rfl
  · have hkey : startKeyByte k { s with level := l } = startKeyByte k s := rfl
    rw [startEffect_eq hk, startEffect_eq hk, hkey]

theorem runSteps_micro_start (k : Klen) (hl : s.level = .micro) (hq : s.SEQ = .idle)
    (hc : s.CMD = startWord k :: rest) (hr : rspFull s = false) :
    runSteps (commandCount s.SEQ (startWord k)) s = startEffect k { s with CMD := rest, CMDR := startWord k } := by
  rw [← startEffect_setSEQ k .chk]
  by_cases hk : k = 0
  · subst hk
    rw [show commandCount s.SEQ (startWord 0) = 2 by simp [commandCount, hq], runSteps,
      applyEvent_admitStart hl hq hc]
    exact applyEvent_chk_empty rfl rfl hr
  · have hcount : commandCount s.SEQ (startWord k) = 1 + ((2 + 256) + 1) + 1 := by
      simp only [commandCount, hq, decodeCommand_startWord, if_neg hk]
    rw [hcount, runSteps, applyEvent_admitStart hl hq hc]
    exact runSteps_chk hk rfl rfl hr

theorem runSteps_micro_data (d : Byte) (hl : s.level = .micro) (hq : s.SEQ = .ready)
    (hc : s.CMD = dataWord d :: rest) (hr : rspFull s = false) :
    runSteps (commandCount s.SEQ (dataWord d)) s = dataEffect d { s with CMD := rest, CMDR := dataWord d } := by
  rw [show commandCount s.SEQ (dataWord d) = 3 by simp [commandCount, hq], runSteps, applyEvent_admitData hl hq hc]
  exact runSteps_pstep rfl rfl hr

theorem runSteps_micro_end (hl : s.level = .micro) (hq : s.SEQ = .ready) (hc : s.CMD = endWord :: rest)
    (hr : rspFull s = false) :
    runSteps (commandCount s.SEQ endWord) s = endEffect { s with CMD := rest, CMDR := endWord } := by
  rw [show commandCount s.SEQ endWord = 2 by simp [commandCount, hq], runSteps, applyEvent_admitEnd hl hq hc]
  exact applyEvent_endc rfl hr

/-! A word that is not admitted, or is illegal, is answered by one micro-operation. -/

/-- A legal word that is not admitted in the wait state (R182). -/
def Unadmitted (q : SeqCode) (w : Word) : Prop :=
  (q = .ready ∧ ∃ k, decodeCommand w = .ok (.start k)) ∨
    (q = .idle ∧ ((∃ d, decodeCommand w = .ok (.data d)) ∨ decodeCommand w = .ok .endCall))

theorem applyEvent_illegal (hq : s.SEQ.isWait = true) (hc : s.CMD = w :: rest) (hr : rspFull s = false)
    (hd : ∃ r, decodeCommand w = .error r) :
    applyEvent .engine s = { s with CMD := rest, CMDR := w, RSP := s.RSP ++ [0xF003] } := by
  obtain ⟨r, hd⟩ := hd
  rcases step_taken hq hc hr with ⟨-, h⟩ | ⟨h, -⟩ | ⟨k, -, h, -⟩ | ⟨d, -, h, -⟩ | ⟨-, h, -⟩
  · exact applyEvent_engine h
  all_goals simp [hd] at h

theorem applyEvent_unadmitted (hq : s.SEQ.isWait = true) (hc : s.CMD = w :: rest) (hr : rspFull s = false)
    (hd : Unadmitted s.SEQ w) :
    applyEvent .engine s = { s with CMD := rest, CMDR := w, RSP := s.RSP ++ [0xF002] } := by
  rcases step_taken hq hc hr with ⟨⟨r, h⟩, -⟩ | ⟨-, h⟩ | ⟨k, hi, h, -⟩ | ⟨d, hi, h, -⟩ | ⟨hi, h, -⟩
  case inr.inl => exact applyEvent_engine h
  all_goals simp [Unadmitted, *] at hd

theorem commandCount_illegal (q : SeqCode) (hd : ∃ r, decodeCommand w = .error r) : commandCount q w = 1 := by
  obtain ⟨r, hd⟩ := hd
  simp [commandCount, hd]

theorem commandCount_unadmitted {q : SeqCode} (hd : Unadmitted q w) : commandCount q w = 1 := by
  rcases hd with ⟨rfl, k, hd⟩ | ⟨rfl, ⟨d, hd⟩ | hd⟩ <;> simp [commandCount, hd]

/-- Settles O44, by what the command step does with the word: a refusal is one DISPATCH, an admitted command is the run of
its micro-operations. -/
theorem commandEqualsItsMicroOperations : Obligations.CommandEqualsItsMicroOperations := by
  intro s t w rest hl hq hc hr ht
  have hcommand : Level.command ≠ .micro := nofun
  rcases step_taken (s := { s with level := .command }) hq hc hr with
    ⟨hd, h⟩ | ⟨hd, h⟩ | ⟨k, hidle, hd, h⟩ | ⟨d, hready, hd, h⟩ | ⟨hready, hd, h⟩ <;>
    obtain rfl := Host.Outcome.next.inj (ht.symm.trans h)
  · rw [commandCount_illegal s.SEQ hd, ← hl]
    exact applyEvent_illegal hq hc hr hd
  · rw [commandCount_unadmitted hd, ← hl]
    exact applyEvent_unadmitted hq hc hr hd
  · obtain rfl := eq_startWord hd
    rw [runSteps_micro_start k hl hidle hc hr, if_neg hcommand, ← startEffect_setLevel, ← hl]
  · obtain rfl := eq_dataWord hd
    rw [runSteps_micro_data d hl hready hc hr, if_neg hcommand, ← hl]
    rfl
  · obtain rfl := eq_endWord hd
    rw [runSteps_micro_end hl hready hc hr, if_neg hcommand, ← hl]
    rfl

/-! What a word does at either level. -/

/-- The number of steps from taking a word to its response (R111, R222). -/
def wordSteps (l : Level) (q : SeqCode) (w : Word) : Nat := if l = .command then 1 else commandCount q w

/-- The same state is reached at either level if each level reaches it. -/
theorem runSteps_wordSteps {t : State} (micro : s.level = .micro → runSteps (commandCount s.SEQ w) s = t)
    (command : s.level = .command → step s = .next t) : runSteps (wordSteps s.level s.SEQ w) s = t := by
  unfold wordSteps
  split_ifs with hl
  · exact applyEvent_engine (command hl)
  · exact micro (by cases h : s.level <;> simp_all)

theorem runSteps_start (k : Klen) (hq : s.SEQ = .idle) (hc : s.CMD = startWord k :: rest) (hr : rspFull s = false) :
    runSteps (wordSteps s.level s.SEQ (startWord k)) s = startEffect k { s with CMD := rest, CMDR := startWord k } :=
  runSteps_wordSteps (fun hl => runSteps_micro_start k hl hq hc hr) fun hl => by
    rw [step_command hl (by rw [hq]; rfl) hc (decodeCommand_startWord k), exec_start_idle k hq hr, hc, List.tail_cons]

theorem runSteps_data (d : Byte) (hq : s.SEQ = .ready) (hc : s.CMD = dataWord d :: rest) (hr : rspFull s = false) :
    runSteps (wordSteps s.level s.SEQ (dataWord d)) s = dataEffect d { s with CMD := rest, CMDR := dataWord d } :=
  runSteps_wordSteps (fun hl => runSteps_micro_data d hl hq hc hr) fun hl => by
    rw [step_command hl (by rw [hq]; rfl) hc (decodeCommand_dataWord d), exec_data_ready d hq hr, hc, List.tail_cons]

theorem runSteps_end (hq : s.SEQ = .ready) (hc : s.CMD = endWord :: rest) (hr : rspFull s = false) :
    runSteps (wordSteps s.level s.SEQ endWord) s = endEffect { s with CMD := rest, CMDR := endWord } :=
  runSteps_wordSteps (fun hl => runSteps_micro_end hl hq hc hr) fun hl => by
    rw [step_command hl (by rw [hq]; rfl) hc decodeCommand_endWord, exec_end_ready hq hr, hc, List.tail_cons]

end Sys2Proof.Machine
end

/-! ### The contract -/

section
namespace Sys2Proof.Machine

/-! `transform` combines its input with a keystream of the key alone. -/

theorem transform_eq_some_iff {key input out : List Byte} :
    transform key input = some out ↔ key ≠ [] ∧ combineBytes (ksa (cyclicKey key)) 0 0 input = out := by
  by_cases hkey : key = [] <;> simp [transform, hkey]

@[simp] theorem combineBytes_length (S : Slots) (i j : Byte) (xs : List Byte) :
    (combineBytes S i j xs).length = xs.length := by
  induction xs generalizing S i j with
  | nil => rfl
  | cons x xs ih => exact congrArg Nat.succ (ih ..)

/-- The keystream is what zero bytes give, and the output is the input xor the keystream (R113, R122). -/
theorem combineBytes_eq_zipWith (S : Slots) (i j : Byte) (xs : List Byte) :
    combineBytes S i j xs = xs.zipWith (· ^^^ ·) (combineBytes S i j (List.replicate xs.length 0)) := by
  induction xs generalizing S i j with
  | nil => rfl
  | cons x xs ih => simpa [combineBytes, List.replicate_succ] using ih _ _ _

/-- The keystream cancels: combining twice from one permutation and one pair of indices gives the input (R118). -/
theorem combineBytes_combineBytes (S : Slots) (i j : Byte) (xs : List Byte) :
    combineBytes S i j (combineBytes S i j xs) = xs := by
  induction xs generalizing S i j with
  | nil => rfl
  | cons x xs ih => simp [combineBytes, ih]

/-- The keystream cancels: two outputs differ by what the inputs differ by (R120). -/
theorem zipWith_combineBytes (S : Slots) (i j : Byte) {xs ys : List Byte} (h : xs.length = ys.length) :
    (combineBytes S i j xs).zipWith (· ^^^ ·) (combineBytes S i j ys) = xs.zipWith (· ^^^ ·) ys := by
  induction xs generalizing S i j ys with
  | nil => rw [List.eq_nil_of_length_eq_zero h.symm]; rfl
  | cons x xs ih =>
    cases ys with
    | nil => cases h
    | cons y ys =>
      have hxor (z : Byte) : x ^^^ z ^^^ (y ^^^ z) = x ^^^ y := by
        rw [BitVec.xor_comm y z, BitVec.xor_assoc, ← BitVec.xor_assoc z, BitVec.xor_self, BitVec.zero_xor]
      simp [combineBytes, hxor, ih _ _ _ (Nat.succ.inj h)]

/-- Settles O47: the second `transform` starts from the first one's permutation and indices. -/
theorem transformIsInvolution : Obligations.TransformIsInvolution := by
  intro key input hkey
  rw [transform_eq_some_iff.2 ⟨hkey, rfl⟩, Option.bind_some, transform_eq_some_iff]
  exact ⟨hkey, combineBytes_combineBytes ..⟩

/-! Which instruction emits a BYTE. -/

/-- From `s` to `t` no BYTE is emitted. -/
def EmitsNoByte (s t : State) : Prop :=
  t.RSP = s.RSP ∨ ∃ r, (∀ v, r ≠ .byte v) ∧ t.RSP = s.RSP ++ [responseWord r]

theorem responseWord_eq_byte {r : Response} {v : Byte} (h : responseWord r = responseWord (.byte v)) :
    ∃ u, r = .byte u := by
  obtain ⟨hack, hkey, hprotocol, hillegal⟩ := responseWord_byte_ne v
  rw [← h] at hack hkey hprotocol hillegal
  cases r with
  | byte u => exact ⟨u, rfl⟩
  | ack => exact absurd rfl hack
  | err e =>
    cases e with
    | invalidKey => exact absurd responseWord_invalidKey hkey
    | protocol => exact absurd responseWord_protocol hprotocol
    | illegalCommand => exact absurd responseWord_illegalCommand hillegal

theorem EmitsNoByte.RSP_ne {s t : State} (h : EmitsNoByte s t) (v : Byte) :
    t.RSP ≠ s.RSP ++ [responseWord (.byte v)] := by
  rcases h with h | ⟨r, hr, h⟩ <;> rw [h]
  · simp
  · intro heq
    obtain ⟨u, hu⟩ := responseWord_eq_byte (List.singleton_inj.1 (List.append_cancel_left heq))
    exact hr u hu

theorem refuseWord_emitsNoByte (e : ErrCode) (w : Word) (s : State) : EmitsNoByte s (refuseWord e w s) := by
  rcases refuseWord_cases e w s with ⟨-, h⟩ | ⟨-, h⟩ <;> rw [h]
  · exact .inl rfl
  · exact .inr ⟨.err e, nofun, rfl⟩

theorem dispatch_emitsNoByte (code : SeqCode) (admits : Instr → Option SeqCode) (s : State) :
    EmitsNoByte s (dispatch code admits s) := by
  rcases dispatch_cases code admits s with h | ⟨w, _, e, _, _, h⟩ | ⟨_, _, _, _, _, _, _, _, h⟩ <;> rw [h]
  · exact .inl rfl
  · exact refuseWord_emitsNoByte e w s
  · exact .inl rfl

/-- A command emits no BYTE if its effect, where it is admitted, emits none. -/
theorem takeCommand_emitsNoByte {admitted : SeqCode} {eff : State → State} {s : State} (refused : SeqCode) (w : Word)
    (h : s.SEQ = admitted → EmitsNoByte s (eff { cmdTake s with CMDR := w })) :
    EmitsNoByte s (takeCommand admitted refused w eff s) := by
  rcases takeCommand_cases admitted refused w eff s with heq | ⟨-, heq⟩ | ⟨hq, -, heq⟩ <;> rw [heq]
  · exact .inl rfl
  · exact refuseWord_emitsNoByte .protocol w s
  · exact h hq

theorem startEffect_emitsNoByte (k : Klen) (s : State) : EmitsNoByte s (startEffect k s) := by
  by_cases hk : k = 0
  · subst hk; exact .inr ⟨.err .invalidKey, nofun, by rw [startEffect_zero]; rfl⟩
  · exact .inr ⟨.ack, nofun, by rw [startEffect_eq hk]; rfl⟩

/-- Every instruction but XORB, and DATA in READY, emits no BYTE. -/
theorem exec_emitsNoByte {i : Instr} {s t : State} (h : exec i s = .next t) (hxorb : i ≠ .xorb)
    (hdata : ∀ d, i = .data d → s.SEQ ≠ .ready) : EmitsNoByte s t := by
  cases i <;> simp only [exec] at h <;> injection h with h <;> subst h
  case start k => exact takeCommand_emitsNoByte _ _ fun _ => startEffect_emitsNoByte k _
  case data d => exact takeCommand_emitsNoByte _ _ fun hq => absurd hq (hdata d rfl)
  case endCall => exact takeCommand_emitsNoByte _ _ fun _ => .inr ⟨.ack, nofun, rfl⟩
  case dispatchIdle | dispatchReady => exact dispatch_emitsNoByte ..
  case xorb => exact absurd rfl hxorb
  case sinit | kbeg | kstep | pstep => exact .inl rfl
  case chkkey =>
    split_ifs
    · exact .inl rfl
    · exact .inr ⟨.err .invalidKey, nofun, rfl⟩
    · exact .inl rfl
  case prst | endc =>
    split_ifs
    · exact .inl rfl
    · exact .inr ⟨.ack, nofun, rfl⟩

/-- Settles O48: each byte gives a byte, and no other instruction emits a BYTE. -/
theorem oneOutputBytePerInputByte : Obligations.OneOutputBytePerInputByte := by
  refine ⟨?length, fun s d hq hr => ⟨_, _, exec_data_ready d hq hr, rfl⟩, ?only⟩
  case length =>
    intro key input out h
    obtain ⟨-, rfl⟩ := transform_eq_some_iff.1 h
    exact combineBytes_length ..
  case only =>
    intro i s t v h hrsp
    by_contra hnot
    obtain ⟨hxorb, hdata⟩ := not_or.1 hnot
    exact (exec_emitsNoByte h hxorb fun d hi hq => hdata ⟨d, hi, hq⟩).RSP_ne v hrsp

/-! The keystream and the input (R122). -/

/-- The registers the keystream is made of. -/
def keystreamRegs (s : State) : Slots × Byte × Byte × Byte := (s.S, s.I, s.J, s.Z)

theorem refuseWord_keystreamRegs (e : ErrCode) (w : Word) (s : State) :
    keystreamRegs (refuseWord e w s) = keystreamRegs s := by
  obtain ⟨hS, hI, hJ, hZ⟩ := refuseWord_frame e w s
  rw [keystreamRegs, hS, hI, hJ, hZ, keystreamRegs]

/-- What DATA leaves in them does not mention its byte. -/
theorem exec_data_keystreamRegs {d : Byte} {s t : State} (h : exec (.data d) s = .next t) :
    keystreamRegs t = keystreamRegs (if s.SEQ = .ready ∧ rspFull s = false then generate s else s) := by
  obtain rfl := Host.Outcome.next.inj h
  split_ifs with hready
  · obtain ⟨hq, hr⟩ := hready
    rw [takeCommand, if_pos hq, if_neg (by simp [hr])]
    rfl
  · rcases takeCommand_cases .ready .idle (dataWord d) (dataEffect d) s with heq | ⟨-, heq⟩ | ⟨hq, hr, -⟩
    · rw [heq]
    · rw [heq, refuseWord_keystreamRegs]
    · exact absurd ⟨hq, hr⟩ hready

/-- Settles O50: DATA moves the keystream registers by `generate`, which reads neither the byte nor CMDR. -/
theorem keystreamIndependentOfInput : Obligations.KeystreamIndependentOfInput := by
  refine ⟨fun s t u d e ht hu => ?data, fun s t c ht => ?pstep, fun key input out h => ?output⟩
  case data =>
    simpa [keystreamRegs] using (exec_data_keystreamRegs ht).trans (exec_data_keystreamRegs hu).symm
  case pstep =>
    obtain rfl := Host.Outcome.next.inj ht
    rfl
  case output =>
    obtain ⟨-, rfl⟩ := transform_eq_some_iff.1 h
    exact combineBytes_eq_zipWith ..

/-! A call of the engine, at either level (R115). -/

/-- `t` is reached from `s` with the responses `rs` emitted: SEQ is `q`, and `rest` is still in CMD. -/
structure Emitted (s t : State) (q : SeqCode) (rest rs : List Word) : Prop where
  seq : t.SEQ = q
  cmd : t.CMD = rest
  rsp : t.RSP = s.RSP ++ rs
  params : t.params = s.params
  level : t.level = s.level

theorem Emitted.trans {s t u : State} {q q' : SeqCode} {ws ws' rs rs' : List Word} (h : Emitted s t q ws rs)
    (h' : Emitted t u q' ws' rs') : Emitted s u q' ws' (rs ++ rs') where
  seq := h'.seq
  cmd := h'.cmd
  rsp := by rw [h'.rsp, h.rsp, List.append_assoc]
  params := h'.params.trans h.params
  level := h'.level.trans h.level

/-- RSP has room for `n` more responses (R32). -/
def RoomFor (n : Nat) (s : State) : Prop := ∀ d, s.params.depth.capacity = some d → s.RSP.length + n ≤ d

theorem RoomFor.rspFull {n : Nat} {s : State} (h : RoomFor (n + 1) s) : rspFull s = false :=
  rspFull_eq_false fun d hd => by have := h d hd; omega

theorem Emitted.roomFor {s t : State} {q : SeqCode} {ws rs : List Word} {n : Nat} (h : Emitted s t q ws rs)
    (hroom : RoomFor (n + rs.length) s) : RoomFor n t := fun d hd => by
  have := hroom d (h.params ▸ hd)
  rw [h.rsp, List.length_append]
  omega

/-- The steps an accepted DATA takes (R222). -/
def Level.dataSteps : Level → Nat
  | .command => 1
  | .micro => 3

theorem wordSteps_data (l : Level) (d : Byte) : wordSteps l .ready (dataWord d) = l.dataSteps := by
  cases l <;> simp [wordSteps, commandCount, Level.dataSteps]

/-- An accepted DATA, taken with `rest` behind it. -/
theorem dataEffect_emitted (d : Byte) (rest : List Word) (s : State) :
    Emitted s (dataEffect d { s with CMD := rest, CMDR := dataWord d }) .ready rest
      [responseWord (.byte (d ^^^ (generate s).Z))] := ⟨rfl, rfl, rfl, rfl, rfl⟩

/-- The DATA words of an open call give the bytes of `combineBytes` (R113). -/
theorem runSteps_datas (xs : List Byte) {s : State} {rest : List Word} (hq : s.SEQ = .ready)
    (hc : s.CMD = xs.map dataWord ++ rest) (hroom : RoomFor xs.length s) :
    Emitted s (runSteps (xs.length * s.level.dataSteps) s) .ready rest
      ((combineBytes s.S s.I s.J xs).map fun b => responseWord (.byte b)) := by
  induction xs generalizing s with
  | nil => rw [List.length_nil, Nat.zero_mul]; exact ⟨hq, hc, (List.append_nil _).symm, rfl, rfl⟩
  | cons x xs ih =>
    have hsteps : wordSteps s.level s.SEQ (dataWord x) = s.level.dataSteps := by rw [hq, wordSteps_data]
    have hword := runSteps_data x hq hc hroom.rspFull
    have hfirst := dataEffect_emitted x (xs.map dataWord ++ rest) s
    rw [hsteps] at hword
    rw [List.length_cons, Nat.succ_mul, Nat.add_comm, runSteps_add, hword]
    exact hfirst.trans (ih rfl rfl (hfirst.roomFor hroom))

/-- Words that are not admitted in IDLE are each answered ERR 2, by one step at either level (R121). -/
theorem runSteps_unadmitted (ws : List Word) {s : State} (hq : s.SEQ = .idle) (hc : s.CMD = ws)
    (hws : ∀ w ∈ ws, Unadmitted .idle w) (hroom : RoomFor ws.length s) :
    Emitted s (runSteps ws.length s) .idle [] (List.replicate ws.length 0xF002) := by
  induction ws generalizing s with
  | nil => exact ⟨hq, hc, (List.append_nil _).symm, rfl, rfl⟩
  | cons w ws ih =>
    obtain ⟨hw, hws⟩ := List.forall_mem_cons.1 hws
    have hfirst : Emitted s (applyEvent .engine s) .idle ws [0xF002] := by
      rw [applyEvent_unadmitted (by rw [hq]; rfl) hc hroom.rspFull (hq ▸ hw)]
      exact ⟨hq, rfl, rfl, rfl, rfl⟩
    exact hfirst.trans (ih hfirst.seq hfirst.cmd hws (hfirst.roomFor hroom))

/-- START with a key that is not empty opens a call (R112). -/
theorem runSteps_open {k : Klen} (hk : k ≠ 0) {s : State} {rest : List Word} (hq : s.SEQ = .idle)
    (hc : s.CMD = startWord k :: rest) (hr : rspFull s = false) :
    ∃ t, runSteps (wordSteps s.level .idle (startWord k)) s = t ∧ Emitted s t .ready rest [0x1000] ∧
      t.S = ksa (startKeyByte k s) ∧ t.I = 0 ∧ t.J = 0 := by
  have hkey : startKeyByte k { s with CMD := rest, CMDR := startWord k } = startKeyByte k s := rfl
  have hword := runSteps_start k hq hc hr
  rw [startEffect_eq hk, hkey] at hword
  -- No later step is to compute the schedule.
  generalize ksa (startKeyByte k s) = T at hword ⊢
  rw [← hq]
  exact ⟨_, hword, ⟨rfl, rfl, rfl, rfl, rfl⟩, rfl, rfl, rfl⟩

/-- END closes it (R114). -/
theorem runSteps_close {s : State} {rest : List Word} (hq : s.SEQ = .ready) (hc : s.CMD = endWord :: rest)
    (hr : rspFull s = false) :
    Emitted s (runSteps (wordSteps s.level .ready endWord) s) .idle rest [0x1000] := by
  have hword := runSteps_end hq hc hr
  rw [hq] at hword
  rw [hword]
  exact ⟨rfl, rfl, rfl, rfl, rfl⟩

/-- The steps of a call of `n` DATA with a key that is not empty (R222). -/
def callSteps (l : Level) (n : Nat) : Nat := if l = .command then n + 2 else 261 + 3 * n + 2

theorem callSteps_eq {k : Klen} (hk : k ≠ 0) (l : Level) (n : Nat) :
    callSteps l n = wordSteps l .idle (startWord k) + (n * l.dataSteps + wordSteps l .ready endWord) := by
  cases l <;> simp only [callSteps, wordSteps, Level.dataSteps, commandCount, decodeCommand_startWord,
    decodeCommand_endWord, if_neg hk, reduceCtorEq, if_true, if_false] <;> omega

/-- A call with a key that is not empty: ACK, the bytes of `combineBytes`, ACK (R115). -/
theorem runSteps_call {k : Klen} (hk : k ≠ 0) {s : State} {xs : List Byte} (hq : s.SEQ = .idle)
    (hc : s.CMD = startWord k :: (xs.map dataWord ++ [endWord])) (hroom : RoomFor (xs.length + 2) s) :
    Emitted s (runSteps (callSteps s.level xs.length) s) .idle []
      ([0x1000] ++
        ((combineBytes (ksa (startKeyByte k s)) 0 0 xs).map (fun b => responseWord (.byte b)) ++ [0x1000])) := by
  obtain ⟨t, ht, hopen, hS, hI, hJ⟩ := runSteps_open hk hq hc hroom.rspFull
  have hroom' : RoomFor (xs.length + 1) t := hopen.roomFor hroom
  have hdata := runSteps_datas xs hopen.seq hopen.cmd fun d hd => (Nat.le_succ _).trans (hroom' d hd)
  have hend := runSteps_close hdata.seq hdata.cmd (RoomFor.rspFull (n := 0) (hdata.roomFor ?_))
  · rw [hdata.level] at hend
    rw [hS, hI, hJ] at hdata
    rw [callSteps_eq hk, runSteps_add, ht, ← hopen.level, runSteps_add]
    exact hopen.trans (hdata.trans hend)
  · simpa [Nat.add_comm] using hroom'

/-- A call with an empty key: ERR 1 for START 0, then ERR 2 for each later word (R121). -/
theorem runSteps_emptyKey {s : State} {ws : List Word} (hq : s.SEQ = .idle) (hc : s.CMD = startWord 0 :: ws)
    (hws : ∀ w ∈ ws, Unadmitted .idle w) (hroom : RoomFor (ws.length + 1) s) :
    Emitted s (runSteps (wordSteps s.level .idle (startWord 0) + ws.length) s) .idle []
      ([0xF001] ++ List.replicate ws.length 0xF002) := by
  have hstart : Emitted s (runSteps (wordSteps s.level .idle (startWord 0)) s) .idle ws [0xF001] := by
    have hword := runSteps_start 0 hq hc hroom.rspFull
    rw [hq, startEffect_zero] at hword
    rw [hword]
    exact ⟨rfl, rfl, by rw [← responseWord_invalidKey]; rfl, rfl, rfl⟩
  rw [runSteps_add]
  exact hstart.trans (runSteps_unadmitted ws hstart.seq hstart.cmd hws (hstart.roomFor hroom))

/-- No word of an input but START's is admitted in IDLE. -/
theorem unadmitted_of_mem_input {w : Word} {xs : List Byte} (hw : w ∈ xs.map dataWord ++ [endWord]) :
    Unadmitted .idle w := by
  rcases List.mem_append.1 hw with h | h
  · obtain ⟨d, -, rfl⟩ := List.mem_map.1 h
    exact .inr ⟨rfl, .inl ⟨d, decodeCommand_dataWord d⟩⟩
  · rw [List.mem_singleton.1 h]
    exact .inr ⟨rfl, .inr decodeCommand_endWord⟩

/-- With the key in the KEY space START runs the key schedule of `transform` (R115, R213, R8). -/
theorem ksa_startKeyByte {s : State} {key : List Byte} {k : Klen} (hk : k ≠ 0) (hkey : key ≠ [])
    (hlen : k.toNat = key.length ∨ (256 ≤ key.length ∧ 256 ≤ k.toNat))
    (hplaced : ∀ a < min key.length 256, Memory.read s.KEY a = key[a]?) :
    ksa (startKeyByte k s) = ksa (cyclicKey key) := by
  refine ksa_congr fun i hi => ?_
  have haddr : (keyAddr k.toNat (BitVec.ofNat 8 i)).toNat = i % key.length := by
    rw [startKeyAddr_toNat hk hi]
    rcases hlen with h | ⟨hkey, hk⟩
    · rw [h]
    · rw [Nat.mod_eq_of_lt (hi.trans_le hk), Nat.mod_eq_of_lt (hi.trans_le hkey)]
  have hlt : i % key.length < key.length := Nat.mod_lt _ (List.length_pos_iff.2 hkey)
  have hread := hplaced _ (lt_min hlt ((Nat.mod_le ..).trans_lt hi))
  rw [startKeyByte, keyRead, haddr, hread, List.getElem?_eq_getElem hlt, cyclicKey, List.getD_eq_getElem _ _ hlt]

/-- Settles O46: the call's responses are those of `combineBytes` under START's schedule, which is `transform`'s. -/
theorem engineComputesTransform : Obligations.EngineComputesTransform := by
  intro s key input k hq hlen hplaced hdepth hc
  have hroom : RoomFor (input.length + 2) s := fun d hd => by have := hdepth d hd; omega
  refine ⟨fun out hout => ?some, fun hout => ?none⟩
  case some =>
    obtain ⟨hkey, rfl⟩ := transform_eq_some_iff.1 hout
    have hk : k ≠ 0 := by
      rintro rfl
      have := List.length_pos_iff.2 hkey
      simp at hlen
      omega
    have hcall := runSteps_call hk hq hc hroom
    rw [ksa_startKeyByte hk hkey hlen hplaced] at hcall
    refine ⟨callSteps s.level input.length, rfl, hcall.seq, hcall.cmd, ?_⟩
    rw [hcall.rsp, ← List.append_assoc, ← List.append_assoc]
    rfl
  case none =>
    obtain rfl : key = [] := by
      by_contra hkey
      rw [transform_eq_some_iff.2 ⟨hkey, rfl⟩] at hout
      cases hout
    obtain rfl : k = 0 := BitVec.eq_of_toNat_eq (by simpa using hlen)
    have hcall := runSteps_emptyKey hq hc (fun _ => unadmitted_of_mem_input) (by simpa using hroom)
    refine ⟨_, ?_, hcall.seq, hcall.cmd, ?_⟩
    · cases s.level <;> simp [wordSteps, commandCount] <;> omega
    · rw [hcall.rsp, ← List.append_assoc]
      simp

/-- Settles O49: both outputs are inputs combined from one permutation and one pair of indices. -/
theorem outputsDifferWhereInputsDo : Obligations.OutputsDifferWhereInputsDo := by
  refine ⟨fun s xs ys hq hl hdepth hlen => ?engine, fun key xs ys os ps hlen hxs hys => ?transform⟩
  case engine =>
    have hcalls (zs : List Byte) (hzs : zs.length = xs.length) :
        (runSteps xs.length { s with CMD := zs.map dataWord }).RSP =
          s.RSP ++ (combineBytes s.S s.I s.J zs).map fun b => responseWord (.byte b) := by
      have h := runSteps_datas zs (s := { s with CMD := zs.map dataWord }) (rest := []) hq (List.append_nil _).symm
        (hzs ▸ hdepth)
      simpa [hl, Level.dataSteps, hzs] using h.rsp
    exact ⟨_, _, combineBytes_length .., (combineBytes_length ..).trans hlen.symm, hcalls xs rfl, hcalls ys hlen.symm,
      zipWith_combineBytes _ _ _ hlen⟩
  case transform =>
    obtain ⟨-, rfl⟩ := transform_eq_some_iff.1 hxs
    obtain ⟨-, rfl⟩ := transform_eq_some_iff.1 hys
    exact zipWith_combineBytes _ _ _ hlen

end Sys2Proof.Machine
end

/-! ### The KSA unit and what its schedule depends on -/

section
namespace Sys2Proof.Machine

variable {s : State}

/-! The micro-operations (R131 to R134). -/

/-- CHKKEY's test under the field's mask. -/
theorem keyEmpty_iff {c : Word} : keyEmpty c = true ↔ c &&& 0x0FFF#16 = 0 := by
  rw [keyEmpty, decide_eq_true_iff, klenOf_eq_mask, ← BitVec.toNat_inj]
  rfl

theorem exec_chkkey_pass (hk : keyEmpty s.CMDR ≠ true) : exec .chkkey s = .next { s with SEQ := .init } := by
  rw [exec, execChkkey, if_neg hk]

theorem exec_chkkey_fail (hk : keyEmpty s.CMDR = true) (hr : rspFull s = false) :
    exec .chkkey s = .next { s with RSP := s.RSP ++ [0xF001], SEQ := .idle } := by
  rw [exec, execChkkey, if_pos hk, hr, ← responseWord_invalidKey]
  rfl

/-- Settles O10: both branches of CHKKEY, its test read under the mask. -/
theorem chkkeyEffect : Obligations.ChkkeyEffect := fun _ =>
  ⟨fun hk => exec_chkkey_pass (mt keyEmpty_iff.1 hk), fun hk => exec_chkkey_fail (keyEmpty_iff.2 hk)⟩

/-- Settles O11: the slots SINIT writes are the identity permutation. -/
theorem sinitEffect : Obligations.SinitEffect := fun _ => ⟨identity, slot_identity, isPerm_identity, rfl⟩

/-- Settles O12: KBEG is this write. -/
theorem kbegEffect : Obligations.KbegEffect := fun _ => rfl

/-- The new J of an iteration as a number (R10, R134). -/
theorem ksaIndex_toNat (S : Slots) (i j kb : Byte) :
    (ksaIndex S i j kb).toNat = (j.toNat + (slot S i).toNat + kb.toNat) % 256 := by
  simp [ksaIndex, BitVec.toNat_add]

theorem exec_kstep (s : State) :
    exec .kstep s = .next { s with
      J := ksaIndex s.S s.I s.J (kstepKeyByte s)
      S := swap s.S s.I (ksaIndex s.S s.I s.J (kstepKeyByte s))
      I := if s.I = 255 then 0 else s.I + 1
      SEQ := if s.I = 255 then .prst else .kstep } := by
  simp only [exec, execKstep, sweepDone, decide_eq_true_eq]

/-- Settles O13: the key address is `keyAddr`, the new J is `ksaIndex`, the exchange is `swap`. -/
theorem kstepEffect : Obligations.KstepEffect := by
  refine fun s => ⟨keyAddr (klenOf s.CMDR) s.I, fun hL => ?_, ksaIndex s.S s.I s.J (kstepKeyByte s), _,
    ksaIndex_toNat _ _ _ _, slot_swap _ _ _, exec_kstep s⟩
  rw [← klenOf_eq_mask] at hL ⊢
  exact keyAddr_toNat s.I hL

/-! The sweep (R134). -/

/-- Before its last iteration the sweep has changed S, J and I only, and I counts the iterations. -/
theorem runSteps_kstep (hq : s.SEQ = .kstep) (hI : s.I = 0) :
    ∀ n < 256, ∃ T j, runSteps n s = { s with S := T, J := j, I := BitVec.ofNat 8 n }
  | 0, _ => ⟨s.S, s.J, by rw [show BitVec.ofNat 8 0 = s.I from hI.symm]; rfl⟩
  | n + 1, hn => by
    obtain ⟨T, j, h⟩ := runSteps_kstep hq hI n (by omega)
    have hmore : sweepDone (BitVec.ofNat 8 n) = false := by
      rw [sweepDone_ofNat (by omega), decide_eq_false_iff_not]
      omega
    have hq' : (runSteps n s).SEQ = .kstep := by rw [h]; exact hq
    rw [runSteps_succ, applyEvent_kstep hq', h]
    simp only [hmore, BitVec.ofNat_add, hq]
    exact ⟨_, _, rfl⟩

/-- Settles O14: the iterations before the last by `runSteps_kstep`, the whole sweep by `runSteps_sweep`. -/
theorem sweepRunsKstep256Times : Obligations.SweepRunsKstep256Times := by
  intro s hq hI
  obtain ⟨j, hend⟩ := runSteps_sweep 255 0 s hq hI rfl
  rw [hend]
  refine ⟨fun n hn => ?_, rfl, rfl, rfl, rfl⟩
  obtain ⟨T, j, h⟩ := runSteps_kstep hq hI n hn
  rw [h]
  exact ⟨hq, Nat.mod_eq_of_lt hn, rfl, rfl⟩

/-! START reads the key below min(L, 256) only (R53, R136). -/

/-- Two KEY spaces that agree below min(L, 256) give START the same permutation. -/
theorem ksa_startKeyByte_congr {k : Klen} (hk : k ≠ 0) {t : State}
    (hkey : ∀ a : Byte, a.toNat < min k.toNat 256 → keyRead t a = keyRead s a) :
    ksa (startKeyByte k t) = ksa (startKeyByte k s) :=
  ksa_congr fun i _ =>
    have hpos : k.toNat ≠ 0 := fun h => hk (BitVec.eq_of_toNat_eq h)
    hkey _ (keyAddressInsideKey k.toNat (BitVec.ofNat 8 i) hpos).2

theorem startEffect_setKEY {k : Klen} {m : Memory}
    (hkey : ∀ a : Byte, a.toNat < min k.toNat 256 → keyRead { s with KEY := m } a = keyRead s a) :
    startEffect k { s with KEY := m } = { startEffect k s with KEY := m } := by
  by_cases hk : k = 0
  · subst hk; rw [startEffect_zero, startEffect_zero]; rfl
  · rw [startEffect_eq hk, startEffect_eq hk, ksa_startKeyByte_congr hk hkey]

theorem exec_start_full (k : Klen) (hr : rspFull s = true) : exec (.start k) s = .next s :=
  congrArg _ (takeCommand_full hr)

theorem exec_start_busy (k : Klen) (hq : s.SEQ.isWait = false) : exec (.start k) s = .next s :=
  congrArg _ (takeCommand_busy hq rfl rfl)

/-- Settles O52: where START runs its schedule by `startEffect_setKEY`; where it waits or is refused it reads no key. -/
theorem scheduleUsesOnlyKeyBytesRead : Obligations.ScheduleUsesOnlyKeyBytesRead := by
  intro k s t m hkey ht
  cases hr : rspFull s with
  | true => rw [exec_start_full k hr] at ht; cases ht; exact exec_start_full k hr
  | false =>
    cases hw : s.SEQ.isWait with
    | false => rw [exec_start_busy k hw] at ht; cases ht; exact exec_start_busy k hw
    | true =>
      rcases (isWait_iff _).1 hw with hq | hq
      · rw [exec_start_idle k hq hr] at ht
        cases ht
        have heff := startEffect_setKEY (s := { s with CMD := s.CMD.tail, CMDR := startWord k }) hkey
        rw [exec_start_idle (s := { s with KEY := m }) k hq hr]
        exact congrArg Host.Outcome.next heff
      · rw [exec_start_ready k hq hr] at ht; cases ht; exact exec_start_ready k hq hr

/-! Keys with one cyclic sequence (R136, R137). -/

theorem transform_congr {key key' : List Byte} (hempty : key = [] ↔ key' = [])
    (hcyclic : ∀ i < 256, cyclicKey key i = cyclicKey key' i) (input : List Byte) :
    transform key input = transform key' input := by
  ext1 out
  rw [transform_eq_some_iff, transform_eq_some_iff, ksa_congr hcyclic, Ne, hempty]

/-- Element `k` of a list repeated is element `k` mod its length. -/
theorem getD_flatten_replicate {α : Type} (l : List α) (d : α) :
    ∀ n k, k < n * l.length → (List.replicate n l).flatten.getD k d = l.getD (k % l.length) d
  | 0, _, hk => by simp at hk
  | n + 1, k, hk => by
    rw [List.replicate_succ, List.flatten_cons]
    by_cases hfirst : k < l.length
    · rw [List.getD_append _ _ _ _ hfirst, Nat.mod_eq_of_lt hfirst]
    · have hle := Nat.le_of_not_lt hfirst
      rw [List.getD_append_right _ _ _ _ hle, Nat.mod_eq_sub_mod hle]
      exact getD_flatten_replicate l d n _ (by rw [Nat.succ_mul] at hk; omega)

theorem cyclicKey_flatten_replicate {key : List Byte} {n : Nat} (hkey : key ≠ []) (hn : n ≠ 0) (i : Nat) :
    cyclicKey (List.replicate n key).flatten i = cyclicKey key i := by
  have hlen : (List.replicate n key).flatten.length = n * key.length := by simp
  have hpos : 0 < n * key.length := Nat.mul_pos (Nat.pos_of_ne_zero hn) (List.length_pos_iff.2 hkey)
  rw [cyclicKey, hlen, getD_flatten_replicate key 0 n _ (Nat.mod_lt _ hpos), Nat.mod_mul_left_mod, cyclicKey]

/-- Settles O53: a key repeated has the cyclic sequence of the key. -/
theorem repeatedKeySameTransform : Obligations.RepeatedKeySameTransform := fun key input n hkey hn =>
  transform_congr (by simp [hkey, hn]) (fun i _ => cyclicKey_flatten_replicate hkey hn i) input

end Sys2Proof.Machine
end

/-! ### The PRGA generator -/

section
namespace Sys2Proof.Machine

variable {s : State}

theorem exec_prst_room (hr : rspFull s = false) :
    exec .prst s = .next { rspEmit .ack s with I := 0, J := 0, SEQ := .ready } := by
  rw [exec, execPrst, hr]
  rfl

/-- Settles O16: with room PRST does not wait, and the word it emits is the ACK (R87, R151). -/
theorem prstEffect : Obligations.PrstEffect := fun _ => exec_prst_room

/-- The new J of a keystream step as a number (R10, R152). -/
theorem prgaIndex_toNat (S : Slots) (i j : Byte) :
    (prgaIndex S i j).toNat = (j.toNat + (slot S i).toNat) % 256 :=
  BitVec.toNat_add ..

/-- The keystream byte with its index as a number, the sum of the two slots mod 256 (R10, R152 step d). -/
theorem keystreamByte_eq_slot_ofNat (S : Slots) (i j : Byte) :
    keystreamByte S i j = slot S (BitVec.ofNat 8 (((slot S i).toNat + (slot S j).toNat) % 256)) := by
  have hindex : BitVec.ofNat 8 (((slot S i).toNat + (slot S j).toNat) % 256) = slot S i + slot S j :=
    BitVec.eq_of_toNat_eq (by simp)
  rw [hindex, keystreamByte]

/-- Settles O17: steps a to d are those of `generate`; the new J is `prgaIndex`, the exchange is `swap`, Z is `keystreamByte`. -/
theorem pstepEffect : Obligations.PstepEffect := by
  refine fun s => ⟨s.I + 1, prgaIndex s.S (s.I + 1) s.J, swap s.S (s.I + 1) (prgaIndex s.S (s.I + 1) s.J),
    BitVec.toNat_add .., prgaIndex_toNat _ _ _, slot_swap _ _ _, ?_⟩
  rw [← keystreamByte_eq_slot_ofNat]
  rfl

end Sys2Proof.Machine
end

/-! ### The XOR combiner and call exit -/

section
namespace Sys2Proof.Machine

variable {s : State}

theorem exec_xorb_room (hr : rspFull s = false) :
    exec .xorb s = .next { rspEmit (.byte (dinOf s.CMDR ^^^ s.Z)) s with SEQ := .ready } := by
  rw [exec, execXorb, hr]
  rfl

/-- The word of XORB's response: DIN is CMDR under its mask, and widening commutes with the exclusive or (R87, R170). -/
theorem responseWord_byte_dinOf_xor (c : Word) (z : Byte) :
    responseWord (.byte (dinOf c ^^^ z)) = 0x2000#16 + (c &&& 0x00FF#16 ^^^ z.setWidth 16) := by
  rw [responseWord, BitVec.setWidth_xor, dinOf_eq_mask]

/-- Settles O18: with room XORB does not wait, and the word it emits is the BYTE of DIN xor Z. -/
theorem xorbEffect : Obligations.XorbEffect := by
  intro s hr
  rw [exec_xorb_room hr, ← responseWord_byte_dinOf_xor]
  rfl

/-- With room ENDC is the end of the call, as END is at command level (R114, R171). -/
theorem exec_endc_room (hr : rspFull s = false) : exec .endc s = .next (endEffect s) := by
  rw [exec, execEndc, hr]
  rfl

/-- Settles O19: with room ENDC does not wait, and the discard gives the values left open. -/
theorem endcEffect : Obligations.EndcEffect := fun _ hr => ⟨_, _, _, _, _, exec_endc_room hr⟩

end Sys2Proof.Machine
end

/-! ### The errors -/

section
namespace Sys2Proof.Machine

variable {s : State} {w : Word} {rest : List Word}

/-- Settles O7: every arm of `exec` answers a next state, and so does what `step` does with a word. -/
theorem nothingStopsTheMachine : Obligations.NothingStopsTheMachine := ⟨exec_answers, step_answers⟩

/-- Settles O58: `observe` tests for the port and for a wait state, and at reset the port is absent. -/
theorem observationPortShowsWaitStatesOnly : Obligations.ObservationPortShowsWaitStatesOnly := by
  refine ⟨fun a s hport hq => ?shown, fun a s hnot => ?hidden, rfl⟩
  case shown => simp [observe, hport, (isWait_iff s.SEQ).2 hq]
  case hidden => rcases hnot with h | h <;> simp [observe, h]

/-! A response is known from its word (R87). -/

theorem responseWord_byte (v : Byte) : responseWord (.byte v) = dataWord v := rfl

/-- No two responses have one word (R87). -/
theorem responseWord_injective : Function.Injective responseWord := by
  intro r r' h
  cases r' with
  | byte v =>
    obtain ⟨u, rfl⟩ := responseWord_eq_byte h
    rw [responseWord_byte, responseWord_byte] at h
    rw [← dinField_dataWord u, h, dinField_dataWord]
  | ack =>
    cases r with
    | byte u => obtain ⟨_, hu⟩ := responseWord_eq_byte h.symm; cases hu
    | ack => rfl
    | err e => cases e <;> exact absurd h (by decide)
  | err e' =>
    cases r with
    | byte u => obtain ⟨_, hu⟩ := responseWord_eq_byte h.symm; cases hu
    | ack => cases e' <;> exact absurd h (by decide)
    | err e => revert h; cases e <;> cases e' <;> decide

/-- The response a step appends is known from RSP. -/
theorem response_unique {rs : List Word} {r r' : Response} (h : rs ++ [responseWord r] = rs ++ [responseWord r']) :
    r = r' :=
  responseWord_injective (List.singleton_inj.1 (List.append_cancel_left h))

/-! What a word that is refused does, at either level (R182, R183). -/

theorem step_eq_applyEvent (s : State) : step s = .next (applyEvent .engine s) := by
  obtain ⟨t, ht⟩ := step_answers s
  rw [applyEvent_engine ht, ht]

theorem step_illegal (hq : s.SEQ.isWait = true) (hc : s.CMD = w :: rest) (hr : rspFull s = false)
    (hd : ∃ r, decodeCommand w = .error r) :
    step s = .next { s with CMD := rest, CMDR := w, RSP := s.RSP ++ [0xF003] } := by
  rw [step_eq_applyEvent, applyEvent_illegal hq hc hr hd]

theorem step_unadmitted (hq : s.SEQ.isWait = true) (hc : s.CMD = w :: rest) (hr : rspFull s = false)
    (hd : Unadmitted s.SEQ w) :
    step s = .next { s with CMD := rest, CMDR := w, RSP := s.RSP ++ [0xF002] } := by
  rw [step_eq_applyEvent, applyEvent_unadmitted hq hc hr hd]

/-- Settles O28: `applyEvent_illegal` holds at either level. -/
theorem illegalCommandRefused : Obligations.IllegalCommandRefused := fun _ _ _ => step_illegal

/-! Which error a command reports (R185). -/

/-- `r` is an ERR exactly if the word meets that error's condition and no earlier one's, taken with SEQ in `q` (R185). -/
def ReportsFirst (q : SeqCode) (w : Word) (r : Response) : Prop :=
  (r = .err .illegalCommand ↔ ∃ e, decodeCommand w = .error e) ∧
    (r = .err .protocol ↔ Unadmitted q w) ∧
    (r = .err .invalidKey ↔ q = .idle ∧ decodeCommand w = .ok (.start 0))

/-- A word that is not admitted is legal, and no START 0 in IDLE. -/
theorem Unadmitted.reportsFirst {q : SeqCode} (h : Unadmitted q w) : ReportsFirst q w (.err .protocol) := by
  rcases h with ⟨rfl, k, hd⟩ | ⟨rfl, ⟨d, hd⟩ | hd⟩ <;> simp [ReportsFirst, Unadmitted, hd]

/-- At command level the response to the oldest word reports the first error it meets. -/
theorem step_command_reports (hl : s.level = .command) (hq : s.SEQ.isWait = true) (hc : s.CMD = w :: rest)
    (hr : rspFull s = false) :
    ∃ t r, step s = .next t ∧ t.RSP = s.RSP ++ [responseWord r] ∧ ReportsFirst s.SEQ w r := by
  have hmicro : s.level ≠ .micro := by simp [hl]
  rcases step_taken hq hc hr with ⟨⟨e, hd⟩, h⟩ | ⟨hd, h⟩ | ⟨k, hi, hd, h⟩ | ⟨d, hi, hd, h⟩ | ⟨hi, hd, h⟩
  · exact ⟨_, .err .illegalCommand, h, by rw [responseWord_illegalCommand], by simp [ReportsFirst, Unadmitted, hd]⟩
  · exact ⟨_, .err .protocol, h, by rw [responseWord_protocol], Unadmitted.reportsFirst hd⟩
  · rw [if_neg hmicro] at h
    by_cases hk : k = 0#12
    · subst hk
      exact ⟨_, .err .invalidKey, h, rfl, by simp [ReportsFirst, Unadmitted, hd, hi]⟩
    · exact ⟨_, .ack, h, by rw [startEffect_pos hk]; rfl, by simp [ReportsFirst, Unadmitted, hd, hi, hk]⟩
  · rw [if_neg hmicro] at h
    exact ⟨_, .byte _, h, rfl, by simp [ReportsFirst, Unadmitted, hd, hi]⟩
  · rw [if_neg hmicro] at h
    exact ⟨_, .ack, h, rfl, by simp [ReportsFirst, Unadmitted, hd, hi]⟩

/-- Settles O29: a response word is one of the three ERR words exactly if its response is that error. -/
theorem errorPriority : Obligations.ErrorPriority := by
  intro s w rest hl hq hc hr
  obtain ⟨t, r, ht, hrsp, hreports⟩ := step_command_reports hl hq hc hr
  refine ⟨t, responseWord r, ht, hrsp, ?_⟩
  rw [← responseWord_illegalCommand, ← responseWord_protocol, ← responseWord_invalidKey,
    responseWord_injective.eq_iff, responseWord_injective.eq_iff, responseWord_injective.eq_iff]
  exact hreports

/-! The admission table (R182). -/

/-- At micro level DISPATCH accepts an admitted word and emits nothing (R110). -/
theorem step_micro_admitted {i : Instr} (hl : s.level = .micro) (hq : s.SEQ.isWait = true) (hc : s.CMD = w :: rest)
    (hr : rspFull s = false) (hd : decodeCommand w = .ok i) (ha : ¬ Unadmitted s.SEQ w) :
    ∃ go, step s = .next { s with CMD := rest, CMDR := w, SEQ := go } := by
  rcases step_taken hq hc hr with ⟨⟨e, he⟩, -⟩ | ⟨h, -⟩ | ⟨k, -, -, h⟩ | ⟨d, -, -, h⟩ | ⟨-, -, h⟩
  · rw [hd] at he; cases he
  · exact absurd h ha
  all_goals rw [if_pos hl] at h; exact ⟨_, h⟩

/-- An admitted word is taken, and not answered ERR 2, at either level. -/
theorem step_admitted {i : Instr} (hq : s.SEQ.isWait = true) (hc : s.CMD = w :: rest) (hr : rspFull s = false)
    (hd : decodeCommand w = .ok i) (ha : ¬ Unadmitted s.SEQ w) :
    ∃ t, step s = .next t ∧ t.CMD = rest ∧ t.CMDR = w ∧ t.RSP ≠ s.RSP ++ [0xF002] := by
  cases hl : s.level with
  | micro =>
    obtain ⟨go, h⟩ := step_micro_admitted hl hq hc hr hd ha
    exact ⟨_, h, rfl, rfl, by simp⟩
  | command =>
    obtain ⟨t, ht, hans⟩ := step_command_answers hl hq hc hr
    obtain ⟨u, r, hu, hrsp, -, hprotocol, -⟩ := step_command_reports hl hq hc hr
    obtain rfl := Host.Outcome.next.inj (ht.symm.trans hu)
    refine ⟨t, ht, hans.cmd, hans.cmdr, fun h => ha (hprotocol.1 (response_unique (rs := s.RSP) ?_))⟩
    rw [← hrsp, h, responseWord_protocol]

/-- Settles O27: a row of the table says that the word is admitted or that it is not. -/
theorem protocolAdmissionTable : Obligations.ProtocolAdmissionTable := by
  intro s w rest hc hr
  have hwait := (isWait_iff s.SEQ).2
  refine ⟨fun hq hd => step_unadmitted (hwait (.inl hq)) hc hr (.inr ⟨hq, hd⟩),
    fun hq hd => step_unadmitted (hwait (.inr hq)) hc hr (.inl ⟨hq, hd⟩), ?start, ?dataOrEnd⟩
  case start =>
    rintro hq ⟨k, hd⟩
    exact step_admitted (hwait (.inl hq)) hc hr hd (by simp [Unadmitted, hq, hd])
  case dataOrEnd =>
    rintro hq (⟨d, hd⟩ | hd) <;> exact step_admitted (hwait (.inr hq)) hc hr hd (by simp [Unadmitted, hq, hd])

/-! What an error leaves as it was (R181, R184, R186). -/

/-- A step that raises an error is a refusal, or refuses an empty key. -/
theorem StepCase.precise {t : State} {e : ErrCode} (h : StepCase s t)
    (hrsp : t.RSP = s.RSP ++ [responseWord (.err e)]) :
    t.S = s.S ∧ t.I = s.I ∧ t.J = s.J ∧ t.Z = s.Z ∧ t.KEY = s.KEY ∧ t.draw = s.draw ∧
      ((s.SEQ.isWait = true ∧ t.SEQ = s.SEQ) ∨ (s.SEQ = .chk ∧ t.SEQ = .idle ∧ e = .invalidKey)) := by
  cases h with
  | refuse _ _ _ hq => exact ⟨rfl, rfl, rfl, rfl, rfl, rfl, .inl ⟨hq, rfl⟩⟩
  | chkFail hq =>
    cases response_unique hrsp
    exact ⟨rfl, rfl, rfl, rfl, rfl, rfl, .inr ⟨hq, rfl, rfl⟩⟩
  | start k _ _ hq =>
    by_cases hk : k = 0
    · subst hk
      exact ⟨rfl, rfl, rfl, rfl, rfl, rfl, .inl ⟨by rw [hq]; rfl, hq.symm⟩⟩
    · rw [startEffect_pos hk] at hrsp
      cases response_unique hrsp
  | data | endCall | prst | xorb | endc => cases response_unique hrsp
  | wait | admitStart | admitData | admitEnd | chkPass | sinit | kbeg | kstep | pstep => simp at hrsp

/-- Settles O30, a case of `StepCase` at a time. -/
theorem errorsArePrecise : Obligations.ErrorsArePrecise := fun _ _ _ ht => (step_case ht).precise

/-- At command level a START 0 in IDLE shows in CMD, CMDR and RSP only (R112, R181). -/
theorem applyEvent_start_zero (hl : s.level = .command) (hq : s.SEQ = .idle) (hc : s.CMD = startWord 0 :: rest)
    (hr : rspFull s = false) :
    applyEvent .engine s = { s with CMD := rest, CMDR := startWord 0, RSP := s.RSP ++ [0xF001] } := by
  apply applyEvent_engine
  rw [step_command hl (by rw [hq]; rfl) hc (decodeCommand_startWord 0), exec_start_idle 0 hq hr, startEffect_zero, hc,
    ← responseWord_invalidKey, ← hq]
  rfl

theorem RoomFor.emit {n : Nat} {t : State} {r : Word} (h : RoomFor (n + 1) s) (hparams : t.params = s.params)
    (hrsp : t.RSP = s.RSP ++ [r]) : RoomFor n t := fun d hd => by
  have := h d (hparams ▸ hd)
  rw [hrsp, List.length_append, List.length_singleton]
  omega

/-- Settles O31: SEQ is still IDLE after the START, so the other two words are not admitted. -/
theorem failedStartOpensNoCall : Obligations.FailedStartOpensNoCall := by
  intro s d hl hq hdepth hc
  have hwait : s.SEQ.isWait = true := (isWait_iff s.SEQ).2 (.inl hq)
  have hroom : RoomFor 3 s := hdepth
  have hroom₁ : RoomFor 2 { s with RSP := s.RSP ++ [0xF001#16] } := hroom.emit rfl rfl
  have hroom₂ : RoomFor 1 { s with RSP := s.RSP ++ [0xF001#16] ++ [0xF002#16] } := hroom₁.emit rfl rfl
  have hrun : runSteps 3 s =
      { s with CMD := [], CMDR := endWord, RSP := s.RSP ++ [0xF001#16] ++ [0xF002#16] ++ [0xF002#16] } :=
    calc runSteps 3 s
      _ = runSteps 2 { s with CMD := [dataWord d, endWord], CMDR := startWord 0, RSP := s.RSP ++ [0xF001#16] } :=
        congrArg (runSteps 2) (applyEvent_start_zero hl hq hc hroom.rspFull)
      _ = runSteps 1 { s with CMD := [endWord], CMDR := dataWord d, RSP := s.RSP ++ [0xF001#16] ++ [0xF002#16] } :=
        congrArg (runSteps 1) (applyEvent_unadmitted hwait rfl hroom₁.rspFull
          (.inr ⟨hq, .inl ⟨d, decodeCommand_dataWord d⟩⟩))
      _ = _ := applyEvent_unadmitted hwait rfl hroom₂.rspFull (.inr ⟨hq, .inr decodeCommand_endWord⟩)
  rw [hrun]
  exact ⟨by simp, hq, rfl, rfl, rfl, rfl⟩

/-- A word refused in a wait state, illegal or not admitted, is answered and shows in CMD, CMDR and RSP only. -/
theorem step_refused (hq : s.SEQ.isWait = true) (hc : s.CMD = w :: rest) (hr : rspFull s = false)
    (hd : (∃ r, decodeCommand w = .error r) ∨ Unadmitted s.SEQ w) :
    ∃ e, step s = .next { s with CMD := rest, CMDR := w, RSP := s.RSP ++ [e] } := by
  rcases hd with hd | hd
  · exact ⟨_, step_illegal hq hc hr hd⟩
  · exact ⟨_, step_unadmitted hq hc hr hd⟩

/-- Settles O32: the DATA reads none of CMD, CMDR and RSP, in which alone the refused word shows. -/
theorem refusedWordLeavesCallIntact : Obligations.RefusedWordLeavesCallIntact := by
  intro s t u v w d rest hq hdepth hc hd ht hu hv
  have hroom : RoomFor 2 s := hdepth
  have hrefused : (∃ r, decodeCommand w = .error r) ∨ Unadmitted s.SEQ w := hd.imp_right fun hk => .inl ⟨hq, hk⟩
  obtain ⟨e, he⟩ := step_refused ((isWait_iff s.SEQ).2 (.inr hq)) hc hroom.rspFull hrefused
  obtain rfl := Host.Outcome.next.inj (he.symm.trans ht)
  have hroom₁ : RoomFor 1 { s with CMD := dataWord d :: rest, CMDR := w, RSP := s.RSP ++ [e] } := hroom.emit rfl rfl
  rw [exec_data_ready d (by exact hq) hroom₁.rspFull] at hu
  rw [exec_data_ready d (by exact hq) (by exact hroom.rspFull)] at hv
  cases hu
  cases hv
  exact ⟨rfl, rfl, rfl, rfl, rfl, rfl, _, e, rfl, List.append_assoc ..⟩

end Sys2Proof.Machine
end

/-! ### Reset and the ways out of READY -/

section
namespace Sys2Proof.Machine

/-- Settles O37: reset writes the registers and the channels, and nothing else. -/
theorem resetEffect : Obligations.ResetEffect :=
  ⟨fun _ => ⟨_, _, _, _, _, _, rfl⟩, rfl, rfl, rfl⟩

theorem hostSend_SEQ (w : Word) (s : State) : (hostSend w s).SEQ = s.SEQ := by
  unfold hostSend
  split_ifs <;> rfl

theorem hostPlaceKey_SEQ (a b : Byte) (s : State) : (hostPlaceKey a b s).SEQ = s.SEQ := by
  unfold hostPlaceKey
  split_ifs <;> rfl

/-- No move of the host but reset writes SEQ. -/
theorem hostMove_SEQ {m : HostMove} (hm : m ≠ .reset) (s : State) : (hostMove m s).SEQ = s.SEQ := by
  cases m with
  | send w => exact hostSend_SEQ w s
  | take => rfl
  | placeKey a b => exact hostPlaceKey_SEQ a b s
  | reset => exact absurd rfl hm

/-- At command level READY is left by END alone (R114, R218). -/
theorem StepCase.leaves_ready {s t : State} (h : StepCase s t) (hl : s.level = .command) (hq : s.SEQ = .ready) :
    t.SEQ = .ready ∨ (t.SEQ = .idle ∧ s.CMD.head? = some endWord) := by
  cases h with
  | wait | refuse => exact .inl hq
  | data => exact .inl rfl
  | endCall _ _ _ hc => exact .inr ⟨rfl, by rw [hc]; rfl⟩
  | admitStart _ _ hl' | admitData _ _ hl' | admitEnd _ hl' => rw [hl] at hl'; cases hl'
  | start _ _ _ hq' | chkFail hq' | chkPass hq' | sinit hq' | kbeg hq' | kstep hq' | prst hq' | pstep hq' | xorb hq'
  | endc hq' => rw [hq] at hq'; cases hq'

/-- Settles O36, by the cases of a step and of a host's move. -/
theorem readyLeftOnlyByEndOrReset : Obligations.ReadyLeftOnlyByEndOrReset := by
  refine ⟨fun s t hl hq ht => (step_case ht).leaves_ready hl hq, fun s m hq => ?_⟩
  by_cases hm : m = .reset
  · exact .inr hm
  · exact .inl ((hostMove_SEQ hm s).trans hq)

end Sys2Proof.Machine
end

/-! ### Unspecified values (R214) -/

section
namespace Sys2Proof.Machine

variable {s t s' t' : State}

/-! What two agreeing states have in common. -/

theorem Agree.fetch_eq (h : Agree s t) : fetch t = fetch s := by
  unfold fetch
  rw [h.level, h.seq, h.cmd]

theorem Agree.rspFull_eq (h : Agree s t) : rspFull t = rspFull s := by
  rw [rspFull, rspFull, h.params, h.rsp]

/-! A register that SEQ says is still read. -/

theorem Agree.slots_of (h : Agree s t) {q : SeqCode} (hq : s.SEQ = q) (hr : q.readsS = true) : s.S = t.S :=
  h.slots (hq ▸ hr)

theorem Agree.indices_of (h : Agree s t) {q : SeqCode} (hq : s.SEQ = q) (hr : q.readsIJ = true) :
    s.I = t.I ∧ s.J = t.J :=
  h.indices (hq ▸ hr)

theorem Agree.cmdr_of (h : Agree s t) {q : SeqCode} (hq : s.SEQ = q) (hr : q.readsCmdr = true) : s.CMDR = t.CMDR :=
  h.cmdr (hq ▸ hr)

/-- In IDLE nothing of S, I, J, CMDR and Z is read before it is written. -/
theorem Agree.of_idle (hs : s.SEQ = .idle) (ht : t.SEQ = .idle) (cmd : s.CMD = t.CMD) (rsp : s.RSP = t.RSP)
    (key : s.KEY = t.KEY) (params : s.params = t.params) (level : s.level = t.level) (sent : s.sent = t.sent) :
    Agree s t where
  seq := hs.trans ht.symm
  cmd := cmd
  rsp := rsp
  key := key
  params := params
  level := level
  sent := sent
  slots := by simp [hs, SeqCode.readsS]
  indices := by simp [hs, SeqCode.readsIJ]
  cmdr := by simp [hs, SeqCode.readsCmdr]
  latch := by simp [hs]

/-! What the operations keep. -/

/-- The oldest word leaves CMD and is in CMDR. -/
theorem Agree.after_take (h : Agree s t) (w : Word) :
    Agree { cmdTake s with CMDR := w } { cmdTake t with CMDR := w } :=
  { h with cmd := congrArg List.tail h.cmd, cmdr := fun _ => rfl }

theorem Agree.after_emit (h : Agree s t) (r : Response) : Agree (rspEmit r s) (rspEmit r t) :=
  { h with rsp := congrArg (· ++ [responseWord r]) h.rsp }

/-- SEQ goes to a code from which only registers that are the same are read. -/
theorem Agree.after_goto (h : Agree s t) {q : SeqCode} (slots : q.readsS = true → s.S = t.S)
    (indices : q.readsIJ = true → s.I = t.I ∧ s.J = t.J) (cmdr : q.readsCmdr = true → s.CMDR = t.CMDR)
    (latch : q = .xorb → s.Z = t.Z) : Agree { s with SEQ := q } { t with SEQ := q } :=
  { h with seq := rfl, slots := slots, indices := indices, cmdr := cmdr, latch := latch }

/-- SEQ goes to IDLE, from which none is read. -/
theorem Agree.after_gotoIdle (h : Agree s t) : Agree { s with SEQ := .idle } { t with SEQ := .idle } :=
  h.after_goto nofun nofun nofun nofun

theorem Agree.after_discard (h : Agree s t) :
    Agree { discardCall s with SEQ := .idle } { discardCall t with SEQ := .idle } :=
  .of_idle rfl rfl h.cmd h.rsp h.key h.params h.level h.sent

theorem generate_congr (hS : s.S = t.S) (hIJ : s.I = t.I ∧ s.J = t.J) :
    (generate s).S = (generate t).S ∧ ((generate s).I = (generate t).I ∧ (generate s).J = (generate t).J) ∧
      (generate s).Z = (generate t).Z := by
  simp [hS, hIJ]

/-- The four steps of PSTEP read S, I and J only (R150). -/
theorem Agree.after_generate (h : Agree s t) (hS : s.S = t.S) (hIJ : s.I = t.I ∧ s.J = t.J) :
    Agree (generate s) (generate t) :=
  have ⟨hS', hIJ', hZ⟩ := generate_congr hS hIJ
  { h with slots := fun _ => hS', indices := fun _ => hIJ', latch := fun _ => hZ }

/-! A word taken, and the commands. -/

theorem Agree.after_refuseWord (h : Agree s t) (e : ErrCode) (w : Word) :
    Agree (refuseWord e w s) (refuseWord e w t) := by
  cases hr : rspFull s with
  | true => rwa [refuseWord_full e w hr, refuseWord_full e w (h.rspFull_eq.trans hr)]
  | false =>
    rw [refuseWord_room e w hr, refuseWord_room e w (h.rspFull_eq.trans hr)]
    exact (h.after_take w).after_emit _

/-- DISPATCH reads none of S, I, J, CMDR and Z: it keeps agreement if accepting a word does (R110). -/
theorem Agree.after_dispatch (h : Agree s t) {code : SeqCode} {admits : Instr → Option SeqCode}
    (accept : ∀ c go w, s.SEQ = code → admits c = some go → Agree (acceptWord w go s) (acceptWord w go t)) :
    Agree (dispatch code admits s) (dispatch code admits t) := by
  unfold dispatch
  rw [← h.seq, ← h.cmd]
  split_ifs with hq
  · split
    · exact h
    · split
      · exact h.after_refuseWord _ _
      · split
        next ha => exact accept _ _ _ hq ha
        next => exact h.after_refuseWord _ _
  · exact h

theorem Agree.after_dispatchIdle (h : Agree s t) : Agree (dispatch .idle admitsIdle s) (dispatch .idle admitsIdle t) :=
  h.after_dispatch fun c go w _ ha => by
    cases c <;> cases ha
    exact (h.after_take w).after_goto nofun nofun (fun _ => rfl) nofun

theorem Agree.after_dispatchReady (h : Agree s t) :
    Agree (dispatch .ready admitsReady s) (dispatch .ready admitsReady t) :=
  h.after_dispatch fun c go w hq ha => by
    cases c <;> cases ha
    · exact (h.after_take w).after_goto (fun _ => h.slots_of hq rfl) (fun _ => h.indices_of hq rfl) (fun _ => rfl)
        nofun
    · exact (h.after_take w).after_goto nofun nofun nofun nofun

theorem Agree.after_takeCommand (h : Agree s t) {admitted refused : SeqCode} {w : Word} {eff : State → State}
    (effect : s.SEQ = admitted → Agree (eff { cmdTake s with CMDR := w }) (eff { cmdTake t with CMDR := w })) :
    Agree (takeCommand admitted refused w eff s) (takeCommand admitted refused w eff t) := by
  unfold takeCommand
  rw [← h.seq, h.rspFull_eq]
  split_ifs with hq
  · exact h
  · exact effect hq
  · exact h.after_refuseWord _ _
  · exact h

theorem Agree.startKeyByte_eq (h : Agree s t) (k : Klen) : startKeyByte k s = startKeyByte k t := by
  funext i
  rw [startKeyByte, startKeyByte, keyRead_of_KEY h.key]

theorem Agree.kstepKeyByte_eq (h : Agree s t) (hcmdr : s.CMDR = t.CMDR) (hI : s.I = t.I) :
    kstepKeyByte s = kstepKeyByte t := by
  rw [kstepKeyByte, kstepKeyByte, keyRead_of_KEY h.key, hcmdr, hI]

/-- START writes S, I and J before it reads them (R112). -/
theorem Agree.after_startEffect (h : Agree s t) (k : Klen) : Agree (startEffect k s) (startEffect k t) := by
  by_cases hk : k = 0
  · subst hk
    rw [startEffect_zero, startEffect_zero]
    exact (h.after_emit _).after_gotoIdle
  · rw [startEffect_eq hk, startEffect_eq hk, h.startKeyByte_eq k]
    exact { h.after_emit .ack with
      seq := rfl, slots := fun _ => rfl, indices := fun _ => ⟨rfl, rfl⟩, cmdr := nofun, latch := nofun }

theorem Agree.after_dataEffect (h : Agree s t) (hq : s.SEQ = .ready) (d : Byte) :
    Agree (dataEffect d s) (dataEffect d t) := by
  have hS := h.slots_of hq rfl
  have hIJ := h.indices_of hq rfl
  obtain ⟨hS', hIJ', hZ⟩ := generate_congr hS hIJ
  rw [dataEffect, dataEffect, hZ]
  exact ((h.after_generate hS hIJ).after_emit _).after_goto (fun _ => hS') (fun _ => hIJ') nofun nofun

theorem Agree.after_endEffect (h : Agree s t) : Agree (endEffect s) (endEffect t) := h.after_discard.after_emit .ack

/-! A step. -/

/-- The micro-operation SEQ selects, run in both states. -/
theorem Agree.after_uop (h : Agree s t) (hs : exec s.SEQ.uop s = .next s') (ht : exec s.SEQ.uop t = .next t') :
    Agree s' t' := by
  have hroom := h.rspFull_eq
  cases hq : s.SEQ <;> rw [hq] at hs ht <;> cases hs <;> cases ht
  case idle => exact h.after_dispatchIdle
  case ready => exact h.after_dispatchReady
  case chk =>
    have hcmdr := h.cmdr_of hq rfl
    rw [← hcmdr, hroom]
    split_ifs
    · exact h
    · exact (h.after_emit _).after_gotoIdle
    · exact { h with seq := rfl, slots := nofun, indices := nofun, cmdr := fun _ => rfl, latch := nofun }
  case init =>
    have hcmdr := h.cmdr_of hq rfl
    exact { h with seq := rfl, slots := fun _ => rfl, indices := nofun, cmdr := fun _ => hcmdr, latch := nofun }
  case kbeg =>
    have hcmdr := h.cmdr_of hq rfl
    have hS := h.slots_of hq rfl
    exact { h with
      seq := rfl, slots := fun _ => hS, indices := fun _ => ⟨rfl, rfl⟩, cmdr := fun _ => hcmdr, latch := nofun }
  case kstep =>
    have hcmdr := h.cmdr_of hq rfl
    have hS := h.slots_of hq rfl
    obtain ⟨hI, hJ⟩ := h.indices_of hq rfl
    rw [h.kstepKeyByte_eq hcmdr hI, hS, hI, hJ]
    exact { h with
      seq := rfl, slots := fun _ => rfl, indices := fun _ => ⟨rfl, rfl⟩, cmdr := fun _ => hcmdr
      latch := by dsimp only; split_ifs <;> exact nofun }
  case prst =>
    have hS := h.slots_of hq rfl
    rw [hroom]
    split_ifs
    · exact h
    · exact { h.after_emit .ack with
        seq := rfl, slots := fun _ => hS, indices := fun _ => ⟨rfl, rfl⟩, cmdr := nofun, latch := nofun }
  case pstep =>
    have hS := h.slots_of hq rfl
    have hIJ := h.indices_of hq rfl
    obtain ⟨hS', hIJ', hZ⟩ := generate_congr hS hIJ
    exact (h.after_generate hS hIJ).after_goto (fun _ => hS') (fun _ => hIJ') (fun _ => h.cmdr_of hq rfl) fun _ => hZ
  case xorb =>
    rw [hroom, h.cmdr_of hq rfl, h.latch hq]
    split_ifs
    · exact h
    · exact (h.after_emit _).after_goto (fun _ => h.slots_of hq rfl) (fun _ => h.indices_of hq rfl) nofun nofun
  case endc =>
    rw [hroom]
    split_ifs
    · exact h
    · exact h.after_endEffect

/-- A command, run whole in both states. -/
theorem Agree.after_command {w : Word} {i : Instr} (h : Agree s t) (hd : decodeCommand w = .ok i)
    (hs : exec i s = .next s') (ht : exec i t = .next t') : Agree s' t' := by
  rcases decodeCommand_ok hd with ⟨k, rfl, -⟩ | ⟨d, rfl, -⟩ | ⟨rfl, -⟩ <;> cases hs <;> cases ht
  · exact h.after_takeCommand fun _ => (h.after_take _).after_startEffect k
  · exact h.after_takeCommand fun hq => (h.after_take _).after_dataEffect hq d
  · exact h.after_takeCommand fun _ => (h.after_take _).after_endEffect

/-- An instruction that `fetch` takes up is the micro-operation of SEQ, or what a command word decodes to. -/
theorem fetch_instr {i : Instr} (h : fetch s = .instr i) : i = s.SEQ.uop ∨ ∃ w, decodeCommand w = .ok i := by
  unfold fetch at h
  split at h
  · split at h
    · cases h
    · split at h
      next hd => cases h; exact .inr ⟨_, hd⟩
      next => cases h
  all_goals cases h; exact .inl rfl

/-- Both engines take up the same, and it reads only what they agree on. -/
theorem Agree.after_step (h : Agree s t) (hs : step s = .next s') (ht : step t = .next t') : Agree s' t' := by
  unfold step at hs ht
  rw [h.fetch_eq] at ht
  cases hf : fetch s with
  | instr i =>
    rw [hf] at hs ht
    rcases fetch_instr hf with rfl | ⟨w, hd⟩
    · exact h.after_uop hs ht
    · exact h.after_command hd hs ht
  | illegal w => rw [hf] at hs ht; cases hs; cases ht; exact h.after_refuseWord _ w
  | waiting => rw [hf] at hs ht; cases hs; cases ht; exact h

/-- Settles O43, by what a step takes up. -/
theorem stepKeepsAgreement : Obligations.StepKeepsAgreement := fun _ _ _ _ => Agree.after_step

/-! The host's moves read none of S, I, J, CMDR and Z. -/

theorem Agree.after_hostSend (h : Agree s t) (w : Word) : Agree (hostSend w s) (hostSend w t) := by
  unfold hostSend
  rw [← h.params, ← h.cmd, ← h.sent]
  split_ifs
  · exact h
  · exact { h with cmd := rfl, params := rfl, sent := rfl }

theorem Agree.after_hostTake (h : Agree s t) : Agree (hostTake s) (hostTake t) := by
  unfold hostTake
  rw [← h.rsp, ← h.sent]
  exact { h with rsp := rfl, sent := rfl }

theorem Agree.after_hostPlaceKey (h : Agree s t) (a b : Byte) : Agree (hostPlaceKey a b s) (hostPlaceKey a b t) := by
  unfold hostPlaceKey keyHeld
  rw [← h.key, ← h.sent]
  split_ifs
  · exact h
  · exact { h with key := rfl, sent := rfl }

theorem Agree.after_hostMove (h : Agree s t) (m : HostMove) : Agree (hostMove m s) (hostMove m t) := by
  cases m with
  | send w => exact h.after_hostSend w
  | take => exact h.after_hostTake
  | placeKey a b => exact h.after_hostPlaceKey a b
  | reset => exact .of_idle rfl rfl rfl rfl h.key h.params h.level rfl

theorem Agree.after_applyEvent (h : Agree s t) (e : Event) : Agree (applyEvent e s) (applyEvent e t) := by
  cases e with
  | engine => exact h.after_step (step_eq_applyEvent s) (step_eq_applyEvent t)
  | host m => exact h.after_hostMove m

theorem Agree.after_runEvents (h : Agree s t) (es : List Event) : Agree (runEvents es s) (runEvents es t) := by
  induction es generalizing s t with
  | nil => exact h
  | cons e es ih => exact ih (h.after_applyEvent e)

/-- Settles O42: engines in IDLE agree in the sense of O43, and every event keeps that. -/
theorem unspecifiedValuesNeverReachAResponse : Obligations.UnspecifiedValuesNeverReachAResponse := by
  intro s t hs ht hcmd hrsp hkey hparams hlevel hsent es
  have h := (Agree.of_idle hs ht hcmd hrsp hkey hparams hlevel hsent).after_runEvents es
  exact ⟨h.rsp, h.seq, h.cmd⟩

end Sys2Proof.Machine
end

/-! ### How long a command runs (R222) -/

section
namespace Sys2Proof.Machine

variable {s : State} {w : Word} {rest : List Word}

/-- The micro-operations of the command that runs, from SEQ to its response (R222); none in a wait state. -/
def uopsLeft (s : State) : Nat :=
  match s.SEQ with
  | .chk => if keyEmpty s.CMDR then 1 else 260
  | .init => 259
  | .kbeg => 258
  | .kstep => 257 - s.I.toNat
  | .prst | .xorb | .endc => 1
  | .pstep => 2
  | .idle | .ready => 0

theorem busy_of_uopsLeft {n : Nat} (h : uopsLeft s = n + 1) : s.SEQ.isWait = false := by
  cases hq : s.SEQ <;> simp_all [uopsLeft, SeqCode.isWait]

/-- KSTEP counts down: I steps, and after the last iteration PRST is left (R134). -/
theorem uopsLeft_kstep (hq : s.SEQ = .kstep) : uopsLeft (applyEvent .engine s) + 1 = uopsLeft s := by
  rw [applyEvent_kstep hq]
  cases hd : sweepDone s.I with
  | true =>
    have hI : s.I = 255 := of_decide_eq_true hd
    simp [uopsLeft, hq, hI]
  | false =>
    have hI : s.I ≠ 255 := of_decide_eq_false hd
    simp only [uopsLeft, hq, Bool.false_eq_true, if_false]
    bv_omega

/-- The engine goes on with a command, `n` micro-operations from the response, emits nothing and leaves `cmd` in CMD. -/
structure RunsOn (n : Nat) (rsp cmd : List Word) (s : State) : Prop where
  left : uopsLeft s = n
  rsp : s.RSP = rsp
  cmd : s.CMD = cmd

/-- A micro-operation that is not the last of its command emits nothing. -/
theorem RunsOn.step {n : Nat} {rsp cmd : List Word} (h : RunsOn (n + 2) rsp cmd s) :
    RunsOn (n + 1) rsp cmd (applyEvent .engine s) := by
  obtain ⟨hleft, rfl, rfl⟩ := h
  cases hq : s.SEQ
  case kstep =>
    have hcount := uopsLeft_kstep hq
    refine ⟨by omega, ?_, ?_⟩ <;> rw [applyEvent_kstep hq]
  case chk =>
    by_cases hk : keyEmpty s.CMDR = true
    · simp only [uopsLeft, hq, if_pos hk] at hleft
      omega
    · simp only [uopsLeft, hq, if_neg hk] at hleft
      rw [applyEvent_uop hq rfl (exec_chkkey_pass hk)]
      exact ⟨Nat.succ.inj hleft, rfl, rfl⟩
  case init | kbeg | pstep =>
    simp only [uopsLeft, hq] at hleft
    rw [applyEvent_uop hq rfl rfl]
    exact ⟨Nat.succ.inj hleft, rfl, rfl⟩
  case idle | ready | prst | xorb | endc =>
    simp only [uopsLeft, hq] at hleft
    omega

theorem RunsOn.runSteps (n : Nat) {m : Nat} {rsp cmd : List Word} (h : RunsOn (n + m + 1) rsp cmd s) :
    RunsOn (m + 1) rsp cmd (runSteps n s) := by
  induction n generalizing s with
  | zero => rwa [Nat.zero_add] at h
  | succ n ih =>
    rw [Nat.add_right_comm n 1 m] at h
    exact ih h.step

/-- DISPATCH accepts a word that takes more than one micro-operation, and the rest of its command is left (R110). -/
theorem runsOn_taken {n : Nat} (hl : s.level = .micro) (hq : s.SEQ.isWait = true) (hc : s.CMD = w :: rest)
    (hr : rspFull s = false) (hn : commandCount s.SEQ w = n + 2) :
    RunsOn (n + 1) s.RSP rest (applyEvent .engine s) := by
  rcases step_taken hq hc hr with ⟨hd, -⟩ | ⟨hd, -⟩ | ⟨k, hidle, hd, h⟩ | ⟨d, hready, hd, h⟩ | ⟨hready, hd, h⟩
  · rw [commandCount_illegal s.SEQ hd] at hn
    omega
  · rw [commandCount_unadmitted hd] at hn
    omega
  · obtain rfl := eq_startWord hd
    rw [applyEvent_engine h, if_pos hl]
    refine ⟨?_, rfl, rfl⟩
    simp only [commandCount, hidle, hd] at hn
    simp only [uopsLeft, keyEmpty_startWord_iff]
    split_ifs at hn ⊢ <;> omega
  all_goals
    rw [applyEvent_engine h, if_pos hl]
    simp only [commandCount, hready, hd] at hn
    exact ⟨Nat.succ.inj hn, rfl, rfl⟩

/-- Settles O45: before the count the command runs on; at the count the state is that of the command step (O44), which
answers the word. -/
theorem commandsFinishInCountedSteps : Obligations.CommandsFinishInCountedSteps := by
  intro s w rest hl hq hc hr
  refine ⟨fun n hpos hn => ?_, ?_⟩
  · obtain ⟨n, rfl⟩ : ∃ k, n = k + 1 := ⟨n - 1, by omega⟩
    obtain ⟨m, hm⟩ : ∃ m, commandCount s.SEQ w = n + m + 2 := ⟨commandCount s.SEQ w - n - 2, by omega⟩
    have h := (runsOn_taken hl hq hc hr hm).runSteps n
    exact ⟨busy_of_uopsLeft h.left, h.rsp, h.cmd⟩
  · obtain ⟨t, ht, hans⟩ := step_command_answers (s := { s with level := .command }) rfl hq hc hr
    rw [commandEqualsItsMicroOperations s t w rest hl hq hc hr ht]
    obtain ⟨r, hrsp⟩ := hans.rsp
    exact ⟨hans.waits, hans.cmd, _, hrsp⟩

end Sys2Proof.Machine
end
